-- ==== Sys2Proof/Word.lean ====
section
/-! DEFINITION. The two word types of the hardware (spec/00_scope.md R5: `XLEN` 8, `ALEN` 16). -/

namespace Sys2Proof

/-- A byte: a register other than `PC`, or a memory cell (R5, R6). -/
abbrev Byte := BitVec 8

/-- A 16-bit word: `PC`, an address, an effective address (R5, R6). -/
abbrev Word := BitVec 16

end Sys2Proof
end

