-- ==== Sys2Proof/Syntax.lean ====
section
/-! DEFINITION. The instructions: one constructor of `Instr` per row of spec/opcode_table.json, with the descriptor each
opcode selects, and the form an instruction of any other opcode map has (spec/30_encoding.md R50, R54, R55, R56). -/

namespace Sys2Proof

/-- The registers a load writes and a store reads (R10, R11). -/
inductive Reg where
  | a | x | y
  deriving DecidableEq, Repr

/-- The addressing-mode codes of R54. -/
inductive Mode where
  | imp | imm | zp | zpx | zpy | abs | abx | aby | izx | izy
  deriving DecidableEq, Repr

/-- The three instruction formats of R50. -/
inductive Format where
  | f1 | f2 | f3
  deriving DecidableEq, Repr

/-- The eight operation kinds of R56. -/
inductive Kind where
  | load (r : Reg)
  | store (r : Reg)
  | call
  | ret
  deriving DecidableEq, Repr

/-- The descriptor an opcode selects (R56). The flag policy is `Kind.setsZN`, the base cost the sum of the charges. -/
structure Descriptor where
  mode : Mode
  kind : Kind
  always : Bool
  deriving DecidableEq, Repr

/-- The flag policy of R56: `SetZN` for the three load kinds, none for all others. -/
def Kind.setsZN : Kind → Bool
  | .load _ => true
  | .store _ => false
  | .call => false
  | .ret => false

/-- The format each mode is written in (R50, last column; R54). -/
def Mode.format : Mode → Format
  | .imp => .f1
  | .imm => .f2
  | .zp => .f2
  | .zpx => .f2
  | .zpy => .f2
  | .abs => .f3
  | .abx => .f3
  | .aby => .f3
  | .izx => .f2
  | .izy => .f2

/-- The length in bytes of each format (R50). -/
def Format.length : Format → Nat
  | .f1 => 1
  | .f2 => 2
  | .f3 => 3

/-- The register a mode adds to an operand or a pointer, if any (R54, R69, R72, R73, R74). -/
def Mode.index : Mode → Option Reg
  | .imp => none
  | .imm => none
  | .zp => none
  | .zpx => some .x
  | .zpy => some .y
  | .abs => none
  | .abx => some .x
  | .aby => some .y
  | .izx => some .x
  | .izy => some .y

/-- The modes that have a conditional and an unconditional variant (R70). -/
def Mode.hasVariants : Mode → Bool
  | .imp => false
  | .imm => false
  | .zp => false
  | .zpx => false
  | .zpy => false
  | .abs => false
  | .abx => true
  | .aby => true
  | .izx => false
  | .izy => true

/-- One constructor per row of the opcode table (R55), in the table's order. `d` is the operand byte `d8`, `w` the 16-bit
operand with high byte `hi8` and low byte `lo8` (R53). -/
inductive Instr where
  | ldaImm (d : Byte)
  | ldaZp (d : Byte)
  | ldaZpx (d : Byte)
  | ldaAbs (w : Word)
  | ldaAbx (w : Word)
  | ldaAby (w : Word)
  | ldaIzx (d : Byte)
  | ldaIzy (d : Byte)
  | ldxImm (d : Byte)
  | ldxZp (d : Byte)
  | ldxZpy (d : Byte)
  | ldxAbs (w : Word)
  | ldxAby (w : Word)
  | ldyImm (d : Byte)
  | ldyZp (d : Byte)
  | ldyZpx (d : Byte)
  | ldyAbs (w : Word)
  | ldyAbx (w : Word)
  | staZp (d : Byte)
  | staZpx (d : Byte)
  | staAbs (w : Word)
  | staAbx (w : Word)
  | staAby (w : Word)
  | staIzx (d : Byte)
  | staIzy (d : Byte)
  | stxZp (d : Byte)
  | stxZpy (d : Byte)
  | stxAbs (w : Word)
  | styZp (d : Byte)
  | styZpx (d : Byte)
  | styAbs (w : Word)
  | jsr (w : Word)
  | rts
  deriving DecidableEq, Repr

/-- The descriptor of each row of R55: mode, operation and the column "extra" (`always` when it says "always"). -/
def Instr.descriptor : Instr → Descriptor
  | .ldaImm _ => ⟨.imm, .load .a, false⟩
  | .ldaZp _ => ⟨.zp, .load .a, false⟩
  | .ldaZpx _ => ⟨.zpx, .load .a, false⟩
  | .ldaAbs _ => ⟨.abs, .load .a, false⟩
  | .ldaAbx _ => ⟨.abx, .load .a, false⟩
  | .ldaAby _ => ⟨.aby, .load .a, false⟩
  | .ldaIzx _ => ⟨.izx, .load .a, false⟩
  | .ldaIzy _ => ⟨.izy, .load .a, false⟩
  | .ldxImm _ => ⟨.imm, .load .x, false⟩
  | .ldxZp _ => ⟨.zp, .load .x, false⟩
  | .ldxZpy _ => ⟨.zpy, .load .x, false⟩
  | .ldxAbs _ => ⟨.abs, .load .x, false⟩
  | .ldxAby _ => ⟨.aby, .load .x, false⟩
  | .ldyImm _ => ⟨.imm, .load .y, false⟩
  | .ldyZp _ => ⟨.zp, .load .y, false⟩
  | .ldyZpx _ => ⟨.zpx, .load .y, false⟩
  | .ldyAbs _ => ⟨.abs, .load .y, false⟩
  | .ldyAbx _ => ⟨.abx, .load .y, false⟩
  | .staZp _ => ⟨.zp, .store .a, false⟩
  | .staZpx _ => ⟨.zpx, .store .a, false⟩
  | .staAbs _ => ⟨.abs, .store .a, false⟩
  | .staAbx _ => ⟨.abx, .store .a, true⟩
  | .staAby _ => ⟨.aby, .store .a, true⟩
  | .staIzx _ => ⟨.izx, .store .a, false⟩
  | .staIzy _ => ⟨.izy, .store .a, true⟩
  | .stxZp _ => ⟨.zp, .store .x, false⟩
  | .stxZpy _ => ⟨.zpy, .store .x, false⟩
  | .stxAbs _ => ⟨.abs, .store .x, false⟩
  | .styZp _ => ⟨.zp, .store .y, false⟩
  | .styZpx _ => ⟨.zpx, .store .y, false⟩
  | .styAbs _ => ⟨.abs, .store .y, false⟩
  | .jsr _ => ⟨.abs, .call, false⟩
  | .rts => ⟨.imp, .ret, false⟩

/-- The operand an instruction carries: none, the byte `d8`, or the word with high byte `hi8` and low byte `lo8` (R50, R53). -/
inductive Operand where
  | none
  | d8 (d : Byte)
  | word (w : Word)
  deriving DecidableEq, Repr

/-- The format an operand belongs to (R50). -/
def Operand.format : Operand → Format
  | .none => .f1
  | .d8 _ => .f2
  | .word _ => .f3

/-- The operand of an instruction. -/
def Instr.operand : Instr → Operand
  | .ldaImm d => .d8 d
  | .ldaZp d => .d8 d
  | .ldaZpx d => .d8 d
  | .ldaAbs w => .word w
  | .ldaAbx w => .word w
  | .ldaAby w => .word w
  | .ldaIzx d => .d8 d
  | .ldaIzy d => .d8 d
  | .ldxImm d => .d8 d
  | .ldxZp d => .d8 d
  | .ldxZpy d => .d8 d
  | .ldxAbs w => .word w
  | .ldxAby w => .word w
  | .ldyImm d => .d8 d
  | .ldyZp d => .d8 d
  | .ldyZpx d => .d8 d
  | .ldyAbs w => .word w
  | .ldyAbx w => .word w
  | .staZp d => .d8 d
  | .staZpx d => .d8 d
  | .staAbs w => .word w
  | .staAbx w => .word w
  | .staAby w => .word w
  | .staIzx d => .d8 d
  | .staIzy d => .d8 d
  | .stxZp d => .d8 d
  | .stxZpy d => .d8 d
  | .stxAbs w => .word w
  | .styZp d => .d8 d
  | .styZpx d => .d8 d
  | .styAbs w => .word w
  | .jsr w => .word w
  | .rts => .none

/-- An instruction of any opcode map: the descriptor its opcode selects, with the operand fetched (R56, R82). -/
structure Coded where
  desc : Descriptor
  operand : Operand
  deriving DecidableEq, Repr

/-- A row of the default table as what its opcode selects and its operand. -/
def Instr.coded (i : Instr) : Coded := ⟨i.descriptor, i.operand⟩

/-- The length of an instruction in bytes: its mode's format decides it (R50, R52). -/
def Coded.length (c : Coded) : Nat := c.desc.mode.format.length

/-- The length of an instruction in bytes (R50, R52). -/
def Instr.length (i : Instr) : Nat := i.descriptor.mode.format.length

end Sys2Proof
end

