-- ==== Sys2Proof/Config.lean ====
section
/-! DEFINITION. The configuration of a machine (spec/00_scope.md R5): the parameters the spec leaves open are the fields of `Config`,
an argument of reset, decode, encode and step. The spec's proposed defaults are `Config.default` in `Decode.lean`. The parameters
the spec fixes are constants here. -/

namespace Sys2Proof

/-- The open parameters of R5, fixed for the life of one machine (D1, D3, D4, D5, D11; U12). No register of the machine holds any of
them and no instruction or command changes one. -/
structure Config where
  /-- `RESET_PC`: what `Reset` writes to `PC` (R16). -/
  resetPc : Word
  /-- `SP_RESET`: what `Reset` writes to `SP` (R18). -/
  spReset : Byte
  /-- `STACK_BASE`: the page base `SP` is an offset from (R17, R140). -/
  stackBase : Word
  /-- `OPCODE_MAP`: from an opcode byte to the descriptor it selects, any of the tuples of R56. `decodeOpcode` in `Decode.lean` is
  the partial function: the first entry of a byte counts, where its descriptor has a complete body (R153). -/
  opcodeMap : List (Byte × Descriptor)
  /-- `RTS_TAIL_CYCLES`: cycles `RTS` charges beyond its opcode fetch and word read (R142). The document's text gives 2; the spec
  keeps it a parameter so that a model can set another value (D11; log 9). -/
  rtsTailCycles : Nat
  deriving DecidableEq, Repr

/-- `JSR_TAIL_CYCLES`: cycles `JSR` charges beyond its fetches and writes (R5, R141). -/
def Config.jsrTailCycles : Nat := 1

/-- What a cell reads as when nothing has written it since the last `Reset` (R32). -/
def Config.unlistedByte : Byte := 0x00#8

end Sys2Proof
end

