-- ==== Sys2Proof/WellFormed.lean ====
section
/-! DEFINITION. What the spec demands of a descriptor. Every operand has the width of its field, so a row of the table has nothing
else that could be ill formed; an instruction of another map also needs an operand of its mode's format. -/

namespace Sys2Proof

/-- A descriptor the spec gives a complete body, in whatever map it stands (R56, R153). `LoadBody` has a case for every mode but
`IMP`, and `StoreBody` for every mode but `IMP` and `IMM` (R93, R94). A call fetches a word and a return nothing, whatever the mode
(R82); where the mode's format says otherwise (R52), the rules give the opcode two lengths and so no body (log 24). The boolean
`always` never matters to it (R70; spec/93_implementation_defined.md U9). -/
def Descriptor.complete (d : Descriptor) : Bool :=
  match d.kind with
  | .load _ => d.mode != .imp
  | .store _ => d.mode != .imp && d.mode != .imm
  | .call => d.mode.format == .f3
  | .ret => d.mode.format == .f1

/-- Of the descriptors with a body, a row of R55 is a call or a return only in the mode the table names: the target is the operand
itself (R141), and the return has none (R142). -/
def Descriptor.modeFits (d : Descriptor) : Bool :=
  match d.kind with
  | .load _ => d.complete
  | .store _ => d.complete
  | .call => d.mode == .abs
  | .ret => d.mode == .imp

/-- No row of R55 uses its own destination or source register as its index (R96). -/
def Descriptor.indexFits (d : Descriptor) : Bool :=
  match d.kind with
  | .load r => d.mode.index != some r
  | .store r => d.mode.index != some r
  | .call => true
  | .ret => true

/-- In R55 the unconditional variant is taken by exactly the stores in a mode that has two variants (R70, D10). -/
def Descriptor.variantFits (d : Descriptor) : Bool :=
  match d.kind with
  | .load _ => !d.always
  | .store _ => d.always == d.mode.hasVariants
  | .call => !d.always
  | .ret => !d.always

/-- The three checks of a row of the default table together. -/
def Descriptor.wf (d : Descriptor) : Bool := d.modeFits && d.indexFits && d.variantFits

/-- A row of the default table is well formed when its descriptor is. -/
def Instr.wf (i : Instr) : Bool := i.descriptor.wf

/-- An instruction of any map is well formed when its descriptor has a complete body and its operand is of the format of its mode. -/
def Coded.wf (c : Coded) : Bool := c.desc.complete && c.operand.format == c.desc.mode.format

end Sys2Proof
end

