-- ==== Sys2Proof/Decode.lean ====
section
/-! DEFINITION. Decoding and encoding (spec/30_encoding.md R50 to R58): the default configuration with its table of opcode bytes, a
decoder total on any bytes that rejects by name, and an encoder. Both read the opcode map of the configuration they are given. -/

namespace Sys2Proof

/-- The low byte of a word, `w[7:0]` (R6). -/
def Word.lo (w : Word) : Byte := w.setWidth 8

/-- The high byte of a word, `w[15:8]` (R6). -/
def Word.hi (w : Word) : Byte := (w >>> 8).setWidth 8

/-- `{h, l}`: the word with high byte `h` and low byte `l` (R6). -/
def Word.ofBytes (h l : Byte) : Word := (h.setWidth 16 <<< 8) ||| l.setWidth 16

/-- `zext_16(d)`: the byte widened with zeros (R6). -/
def Byte.zext (d : Byte) : Word := d.setWidth 16

/-- The spec's default `OPCODE_MAP`: the opcode, mode, operation and "extra" columns of R55, in its order. The byte values are
general knowledge of the family: PRESUMED, unsafe, log 3. Which rows say "always" is D10: log 8. -/
def defaultOpcodeMap : List (Byte × Descriptor) := [
  (0xA9#8, ⟨.imm, .load .a, false⟩),
  (0xA5#8, ⟨.zp, .load .a, false⟩),
  (0xB5#8, ⟨.zpx, .load .a, false⟩),
  (0xAD#8, ⟨.abs, .load .a, false⟩),
  (0xBD#8, ⟨.abx, .load .a, false⟩),
  (0xB9#8, ⟨.aby, .load .a, false⟩),
  (0xA1#8, ⟨.izx, .load .a, false⟩),
  (0xB1#8, ⟨.izy, .load .a, false⟩),
  (0xA2#8, ⟨.imm, .load .x, false⟩),
  (0xA6#8, ⟨.zp, .load .x, false⟩),
  (0xB6#8, ⟨.zpy, .load .x, false⟩),
  (0xAE#8, ⟨.abs, .load .x, false⟩),
  (0xBE#8, ⟨.aby, .load .x, false⟩),
  (0xA0#8, ⟨.imm, .load .y, false⟩),
  (0xA4#8, ⟨.zp, .load .y, false⟩),
  (0xB4#8, ⟨.zpx, .load .y, false⟩),
  (0xAC#8, ⟨.abs, .load .y, false⟩),
  (0xBC#8, ⟨.abx, .load .y, false⟩),
  (0x85#8, ⟨.zp, .store .a, false⟩),
  (0x95#8, ⟨.zpx, .store .a, false⟩),
  (0x8D#8, ⟨.abs, .store .a, false⟩),
  (0x9D#8, ⟨.abx, .store .a, true⟩),
  (0x99#8, ⟨.aby, .store .a, true⟩),
  (0x81#8, ⟨.izx, .store .a, false⟩),
  (0x91#8, ⟨.izy, .store .a, true⟩),
  (0x86#8, ⟨.zp, .store .x, false⟩),
  (0x96#8, ⟨.zpy, .store .x, false⟩),
  (0x8E#8, ⟨.abs, .store .x, false⟩),
  (0x84#8, ⟨.zp, .store .y, false⟩),
  (0x94#8, ⟨.zpx, .store .y, false⟩),
  (0x8C#8, ⟨.abs, .store .y, false⟩),
  (0x20#8, ⟨.abs, .call, false⟩),
  (0x60#8, ⟨.imp, .ret, false⟩)]

/-- The defaults the spec proposes for the open parameters (R5). The three numbers are general knowledge of the family: PRESUMED,
unsafe, log 4; the opcode map: log 3; the cost of `RTS`: log 9. -/
def Config.default : Config where
  resetPc := 0xFFFC#16
  spReset := 0xFF#8
  stackBase := 0x0100#16
  opcodeMap := defaultOpcodeMap
  rtsTailCycles := 2

/-- The entry a map gives for an opcode byte: the first one of that byte. -/
def lookupOpcode (op : Byte) : List (Byte × Descriptor) → Option Descriptor
  | [] => none
  | (k, d) :: rows => if op = k then some d else lookupOpcode op rows

/-- `OPCODE_MAP(op)` of R82: all eight bits select the descriptor (R51); `none` is an unknown opcode (R58). An entry whose descriptor
has no complete body is left out of the map, the first of the two ways R153 allows (D25; log 24). -/
def decodeOpcode (cfg : Config) (op : Byte) : Option Descriptor := (lookupOpcode op cfg.opcodeMap).filter Descriptor.complete

/-- An opcode byte that selects a descriptor, if the map has one. -/
def opcodeOf (cfg : Config) (d : Descriptor) : Option Byte :=
  (cfg.opcodeMap.find? fun row => decide (decodeOpcode cfg row.1 = some d)).map Prod.fst

/-- Why bytes are no instruction. -/
inductive Reject where
  /-- The first byte is not in the opcode map (R58). -/
  | unknownOpcode (op : Byte)
  /-- The opcode is known and its operand bytes are missing from the list. The machine's memory has no end, so only a list of
  bytes can be cut short (log 17). -/
  | missingOperand (op : Byte)
  /-- There is no byte at all. -/
  | noBytes
  deriving DecidableEq, Repr

/-- The operand of a format at the head of a list of bytes, in ascending address order, and the bytes after it (R51, R53). -/
def takeOperand : Format → List Byte → Option (Operand × List Byte)
  | .f1, rest => some (.none, rest)
  | .f2, d :: rest => some (.d8 d, rest)
  | .f2, [] => none
  | .f3, l :: h :: rest => some (.word (Word.ofBytes h l), rest)
  | .f3, [_] => none
  | .f3, [] => none

/-- The decoder: the instruction at the head of a list of bytes, in ascending address order, and the bytes after it. -/
def decode (cfg : Config) : List Byte → Except Reject (Coded × List Byte)
  | [] => .error .noBytes
  | op :: rest =>
    match decodeOpcode cfg op with
    | none => .error (.unknownOpcode op)
    | some d =>
      match takeOperand d.mode.format rest with
      | some (o, rest) => .ok (⟨d, o⟩, rest)
      | none => .error (.missingOperand op)

/-- The `LDA` rows (R100 to R107) by mode, `always` and operand. -/
def ldaRow : Mode → Bool → Operand → Option Instr
  | .imm, false, .d8 d => some (.ldaImm d)
  | .zp, false, .d8 d => some (.ldaZp d)
  | .zpx, false, .d8 d => some (.ldaZpx d)
  | .abs, false, .word w => some (.ldaAbs w)
  | .abx, false, .word w => some (.ldaAbx w)
  | .aby, false, .word w => some (.ldaAby w)
  | .izx, false, .d8 d => some (.ldaIzx d)
  | .izy, false, .d8 d => some (.ldaIzy d)
  | _, _, _ => none

/-- The `LDX` rows (R108 to R112) by mode, `always` and operand. -/
def ldxRow : Mode → Bool → Operand → Option Instr
  | .imm, false, .d8 d => some (.ldxImm d)
  | .zp, false, .d8 d => some (.ldxZp d)
  | .zpy, false, .d8 d => some (.ldxZpy d)
  | .abs, false, .word w => some (.ldxAbs w)
  | .aby, false, .word w => some (.ldxAby w)
  | _, _, _ => none

/-- The `LDY` rows (R113 to R117) by mode, `always` and operand. -/
def ldyRow : Mode → Bool → Operand → Option Instr
  | .imm, false, .d8 d => some (.ldyImm d)
  | .zp, false, .d8 d => some (.ldyZp d)
  | .zpx, false, .d8 d => some (.ldyZpx d)
  | .abs, false, .word w => some (.ldyAbs w)
  | .abx, false, .word w => some (.ldyAbx w)
  | _, _, _ => none

/-- The `STA` rows (R120 to R126) by mode, `always` and operand. -/
def staRow : Mode → Bool → Operand → Option Instr
  | .zp, false, .d8 d => some (.staZp d)
  | .zpx, false, .d8 d => some (.staZpx d)
  | .abs, false, .word w => some (.staAbs w)
  | .abx, true, .word w => some (.staAbx w)
  | .aby, true, .word w => some (.staAby w)
  | .izx, false, .d8 d => some (.staIzx d)
  | .izy, true, .d8 d => some (.staIzy d)
  | _, _, _ => none

/-- The `STX` rows (R127 to R129) by mode, `always` and operand. -/
def stxRow : Mode → Bool → Operand → Option Instr
  | .zp, false, .d8 d => some (.stxZp d)
  | .zpy, false, .d8 d => some (.stxZpy d)
  | .abs, false, .word w => some (.stxAbs w)
  | _, _, _ => none

/-- The `STY` rows (R130 to R132) by mode, `always` and operand. -/
def styRow : Mode → Bool → Operand → Option Instr
  | .zp, false, .d8 d => some (.styZp d)
  | .zpx, false, .d8 d => some (.styZpx d)
  | .abs, false, .word w => some (.styAbs w)
  | _, _, _ => none

/-- The row of the default table that a descriptor and an operand make, if there is one (R55). -/
def Coded.instr? (c : Coded) : Option Instr :=
  match c.desc.kind with
  | .load .a => ldaRow c.desc.mode c.desc.always c.operand
  | .load .x => ldxRow c.desc.mode c.desc.always c.operand
  | .load .y => ldyRow c.desc.mode c.desc.always c.operand
  | .store .a => staRow c.desc.mode c.desc.always c.operand
  | .store .x => stxRow c.desc.mode c.desc.always c.operand
  | .store .y => styRow c.desc.mode c.desc.always c.operand
  | .call =>
    match c.desc.mode, c.desc.always, c.operand with
    | .abs, false, .word w => some (.jsr w)
    | _, _, _ => none
  | .ret =>
    match c.desc.mode, c.desc.always, c.operand with
    | .imp, false, .none => some .rts
    | _, _, _ => none

/-- The decoder with the default map, giving a row of the table. -/
def decodeInstr (bytes : List Byte) : Option (Instr × List Byte) :=
  match decode Config.default bytes with
  | .ok (c, rest) => c.instr?.map fun i => (i, rest)
  | .error _ => none

/-- The two bytes of a word operand, low byte first (R41, R51). -/
def wordBytes (w : Word) : List Byte := [Word.lo w, Word.hi w]

/-- The bytes of an operand (R51, R53). -/
def Operand.bytes : Operand → List Byte
  | .none => []
  | .d8 d => [d]
  | .word w => wordBytes w

/-- The encoder: the bytes of a well-formed instruction in ascending address order (R51, R55); `none` where the map has no opcode
for its descriptor. -/
def encode (cfg : Config) (c : Coded) : Option (List Byte) :=
  if c.wf then (opcodeOf cfg c.desc).map fun op => op :: c.operand.bytes else none

/-- The encoder with the default map, which has an opcode for every row of the table. -/
def encodeInstr (i : Instr) : Option (List Byte) := encode Config.default i.coded

/-- The three bytes, in ascending address order, of a number numbered as spec/opcode_table.json numbers an instruction's bits
(bit 0 is bit 0 of the opcode byte), with every bit from `nbits` up taken as 0. Three bytes is the longest instruction (R50). -/
def tableWordBytes (nbits w : Nat) : List Byte :=
  let v : BitVec 24 := BitVec.ofNat 24 (w % 2 ^ nbits)
  [v.setWidth 8, (v >>> 8).setWidth 8, (v >>> 16).setWidth 8]

/-- The instruction the decoder reads from such a number with the default map; `none` where it refuses. -/
def decodeTableWord (nbits w : Nat) : Option Instr := (decodeInstr (tableWordBytes nbits w)).map Prod.fst

end Sys2Proof
end

