-- ==== Sys2Proof/Machine/State.lean ====
section
/-! DEFINITION. The state of the machine as plain data, what a step can stop with, and the state after `Reset`
(spec/10_state.md; spec/70_reset_and_hazards.md R170). -/

namespace Sys2Proof.Machine

/-- The cells of the one address space (spec/20_memory.md R30, R31) that differ from `Config.unlistedByte`, by rising address.
`Memory.wf` in `Machine/Ops.lean` is the canonical form. -/
abbrev Memory := List Host.Cell

/-- The error kinds of spec/60_exceptions.md R150: names only, with no numeric code. -/
inductive ErrorKind where
  /-- An opcode byte outside the map (R151). Raised by the decode of `Step`; not fatal. -/
  | unknownOpcode
  /-- `cyc` is zero or below at the loop test (R152). The normal end of `Execute`, not an error. -/
  | outOfBudget
  /-- Reserved by the document; nothing in this hardware raises it (R153, log 21). -/
  | malformedInstructionStream
  deriving DecidableEq, Repr

/-- One report on the diagnostic stream: the unknown opcode byte and the address it was fetched from (R25, R151). -/
structure Report where
  op : Byte
  addr : Word
  deriving DecidableEq, Repr

/-- Everything the spec gives the machine (spec/10_state.md, table of section 1). -/
structure State where
  /-- `A`, the accumulator (R10). -/
  a : Byte
  /-- `X`, index register (R10). -/
  x : Byte
  /-- `Y`, index register (R10). -/
  y : Byte
  /-- `SP`, the stack pointer, an offset from `STACK_BASE` (R17). -/
  sp : Byte
  /-- `PC`, the address of the next instruction byte (R13). -/
  pc : Word
  /-- `C`, carry (R19). No instruction writes it (R20). -/
  flagC : Bool
  /-- `Z`, zero (R19): written by every load (R20). -/
  flagZ : Bool
  /-- `I`, interrupt-disable (R19). Inert storage (R20, R155). -/
  flagI : Bool
  /-- `D`, decimal-mode (R19). Inert storage (R20). -/
  flagD : Bool
  /-- `B`, break (R19). Inert storage (R20, R154). -/
  flagB : Bool
  /-- `V`, overflow (R19). No instruction writes it (R20). -/
  flagV : Bool
  /-- `N`, negative (R19): written by every load (R20). -/
  flagN : Bool
  /-- `M`, the 65536 cells (R30). -/
  mem : Memory
  /-- `cyc`, what remains of the cycle budget: a signed count of no stated width (R24; logs 2 and 11). -/
  cyc : Int
  /-- `diag`, the append-only diagnostic stream, oldest report first (R25). -/
  diag : List Report
  deriving DecidableEq, Repr

/-- The reasons a step can stop with a fault: there is none. "No exceptions cross the Execute boundary" (spec/41_execute_loop.md
R89), every access is valid (R30, R154), and an unknown opcode is reported and passed over (R151). Nobody raises a fault; a type
without constructors says so (log 20). -/
inductive Fault where
  deriving DecidableEq, Repr

/-- The reasons the model declines. -/
inductive Refusal where
  /-- Raised by an arm of `exec` whose instruction has no meaning yet. No arm does. Safe: the model stops. -/
  | notModelled (mnemonic : String)
  /-- Raised by `hostStep` for a command other than `Reset` before the first `Reset`, when no piece of state has a value
  (R27, D18). Safe: the model stops. No step of the machine raises it. -/
  | beforeReset
  /-- Raised by `execWith` for a descriptor and operand that have no complete body (R153). Safe: the model stops. The decoder gives
  none of these, since it leaves such an opcode out of the map, so no step of the machine raises it. -/
  | incompleteBody
  deriving DecidableEq, Repr

/-- What fetching at `PC` gives (spec/41_execute_loop.md R82): an instruction all of whose bytes have been fetched, or the end of
the step at an unknown opcode, with the state after it. -/
inductive Fetched where
  | instr (c : Coded) (s : State)
  | unknown (s : State)
  deriving DecidableEq, Repr

/-- The state right after `Reset` of a machine with a configuration (R170): its constants, zeroes everywhere else, all of memory zero,
`diag` empty. `cyc` has no value outside an `Execute` (R24): the 0 here is the model's, DESIGN CHOICE, unsafe, log 2. -/
def State.resetWith (cfg : Config) : State where
  a := 0#8
  x := 0#8
  y := 0#8
  sp := cfg.spReset
  pc := cfg.resetPc
  flagC := false
  flagZ := false
  flagI := false
  flagD := false
  flagB := false
  flagV := false
  flagN := false
  mem := []
  cyc := 0
  diag := []

/-- The state right after `Reset` with the spec's default parameters (R5, R170). -/
def State.reset : State := State.resetWith Config.default

end Sys2Proof.Machine
end

