-- ==== Sys2Proof/Machine/Ops.lean ====
section
/-! DEFINITION. The named operations over memory, registers and the cycle counter (spec/20_memory.md R32 to R40;
spec/41_execute_loop.md R85), the two stack addresses (spec/44_call_return.md R140), and the one reportable condition
(spec/60_exceptions.md R151). -/

namespace Sys2Proof.Machine

/-! ### The memory -/

/-- The byte a list of cells gives for an address; an unlisted address reads as R32 says. -/
def Memory.cellAt : Memory → Nat → Byte
  | [], _ => Config.unlistedByte
  | (k, v) :: m, n => if k = n then v else Memory.cellAt m n

/-- Put a cell at its place by address. -/
def Memory.insert (n : Nat) (v : Byte) : Memory → Memory
  | [] => [(n, v)]
  | (k, w) :: m => if n < k then (n, v) :: (k, w) :: m else (k, w) :: Memory.insert n v m

/-- Remove every cell listed at an address. -/
def Memory.erase (n : Nat) : Memory → Memory
  | [] => []
  | (k, w) :: m => if k = n then Memory.erase n m else (k, w) :: Memory.erase n m

/-- `MemRead(addr, 1)` (R32). -/
def Memory.read (m : Memory) (a : Word) : Byte := Memory.cellAt m a.toNat

/-- `MemWrite(addr, 1, v)` (R32). A byte equal to what an unlisted address reads as is not listed. -/
def Memory.write (m : Memory) (a : Word) (v : Byte) : Memory :=
  if v = Config.unlistedByte then Memory.erase a.toNat m
  else Memory.insert a.toNat v (Memory.erase a.toNat m)

/-- The canonical form from an address up: rising addresses below 65536, no byte equal to the unlisted one. -/
def Memory.wfFrom : Nat → Memory → Bool
  | _, [] => true
  | n, (k, v) :: m => decide (n ≤ k) && decide (k < 65536) && (v != Config.unlistedByte) && Memory.wfFrom (k + 1) m

/-- The canonical form: equal memories are equal lists. -/
def Memory.wf (m : Memory) : Bool := Memory.wfFrom 0 m

/-- `M[addr]` (R32): no state change, no charge. -/
def State.peek (s : State) (a : Word) : Byte := s.mem.read a

/-- `M[addr] <- v` (R32): no other change, no charge. The host loads a program with it (R176). -/
def State.poke (s : State) (a : Word) (v : Byte) : State := { s with mem := s.mem.write a v }

/-- The raw writes of consecutive bytes from an address up, modulo 65536 (R30, R176). -/
def State.pokeList (s : State) (a : Word) : List Byte → State
  | [] => s
  | v :: vs => State.pokeList (s.poke a v) (a + 1#16) vs

/-! ### The charging primitives -/

/-- `Charge(n)` (R85): `cyc <- cyc - n`, nothing else. -/
def State.charge (s : State) (n : Nat) : State := { s with cyc := s.cyc - (n : Int) }

/-- `FetchByte()` (R35): the byte at `PC`, then `PC +_16 1` and one cycle. -/
def fetchByte (s : State) : Byte × State :=
  (s.peek s.pc, ({ s with pc := s.pc + 1#16 } : State).charge 1)

/-- `FetchWord()` (R36): the little-endian word at `PC` and `PC +_16 1`, then `PC +_16 2` and two cycles. -/
def fetchWord (s : State) : Word × State :=
  (Word.ofBytes (s.peek (s.pc + 1#16)) (s.peek s.pc), ({ s with pc := s.pc + 2#16 } : State).charge 2)

/-- `ReadByte(addr)` (R37): the byte, one cycle. -/
def readByte (a : Word) (s : State) : Byte × State := (s.peek a, s.charge 1)

/-- `ReadWord(addr)` (R38): two chained byte reads, low byte first, the second at `addr +_16 1`. -/
def readWord (a : Word) (s : State) : Word × State :=
  let l := readByte a s
  let h := readByte (a + 1#16) l.2
  (Word.ofBytes h.1 l.1, h.2)

/-- `WriteByte(addr, v)` (R39): the byte stored, one cycle. -/
def writeByte (a : Word) (v : Byte) (s : State) : State := (s.poke a v).charge 1

/-- `WriteWord(addr, w)` (R40): low byte at `addr`, then high byte at `addr +_16 1`. -/
def writeWord (a : Word) (w : Word) (s : State) : State :=
  writeByte (a + 1#16) (Word.hi w) (writeByte a (Word.lo w) s)

/-! ### Registers -/

/-- A register's value (R10). -/
def State.getReg (s : State) : Reg → Byte
  | .a => s.a
  | .x => s.x
  | .y => s.y

/-- `r <- v` (R7, R10). -/
def State.setReg (s : State) (r : Reg) (v : Byte) : State :=
  match r with
  | .a => { s with a := v }
  | .x => { s with x := v }
  | .y => { s with y := v }

/-- `SP <- v` (R17). -/
def State.setSp (s : State) (v : Byte) : State := { s with sp := v }

/-- `PC <- target` (R7, R14). -/
def State.setPc (s : State) (w : Word) : State := { s with pc := w }

/-! ### The stack -/

/-- `PushAddr()` (R140, D6): where `JSR` writes its word, with `SP` before the decrement. -/
def pushAddr (cfg : Config) (sp : Byte) : Word := cfg.stackBase + Byte.zext sp - 1#16

/-- `PopAddr()` (R140, D6): where `RTS` reads its word, with `SP` before the increment. -/
def popAddr (cfg : Config) (sp : Byte) : Word := cfg.stackBase + Byte.zext sp + 1#16

/-! ### The one reportable condition -/

/-- `raise UnknownOpcode(op, at)` (R151): the report, and nothing else. Nothing is saved, no handler is entered, and there is
nothing to return from (R157, R158). -/
def raiseUnknownOpcode (op : Byte) (addr : Word) (s : State) : State := { s with diag := s.diag ++ [⟨op, addr⟩] }

end Sys2Proof.Machine
end

