-- ==== Sys2Proof/Machine/Control.lean ====
section
/-! DEFINITION. Call and return (spec/44_call_return.md R141, R142), under a configuration and with the spec's defaults. The state each
meaning takes is the one after all bytes of the instruction have been fetched, so `PC` is the address of the next instruction
(log 19). -/

namespace Sys2Proof.Machine

/-- `JSR $hhll` (R141): the word `PC -_16 1` to `PushAddr()`, `SP -_8 2`, the tail charge, then the target. -/
def execJsrWith (cfg : Config) (w : Word) (s : State) : Host.Outcome State Fault Refusal :=
  let s1 := writeWord (pushAddr cfg s.sp) (s.pc - 1#16) s
  .next (((s1.setSp (s1.sp - 2#8)).charge Config.jsrTailCycles).setPc w)

/-- `RTS` (R142): the word at `PopAddr()`, `SP +_8 2`, `PC` one past the word, then the tail charge. -/
def execRtsWith (cfg : Config) (s : State) : Host.Outcome State Fault Refusal :=
  let p := readWord (popAddr cfg s.sp) s
  .next (((p.2.setSp (p.2.sp + 2#8)).setPc (p.1 + 1#16)).charge cfg.rtsTailCycles)

/-- `JSR $hhll` with the default parameters (R141). -/
def execJsr (w : Word) (s : State) : Host.Outcome State Fault Refusal := execJsrWith Config.default w s

/-- `RTS` with the default parameters (R142). -/
def execRts (s : State) : Host.Outcome State Fault Refusal := execRtsWith Config.default s

end Sys2Proof.Machine
end

