-- ==== Sys2Proof/Machine/Flags.lean ====
section
/-! DEFINITION. The one flag computation of the hardware (spec/41_execute_loop.md R88) and the flags by name
(spec/10_state.md R19). -/

namespace Sys2Proof.Machine

/-- `SetZN(v)` (R88): `Z <- (v == 0)`, `N <- v[7]`, the other five flags kept. -/
def setZN (v : Byte) (s : State) : State := { s with flagZ := v == 0#8, flagN := v.msb }

/-- The seven flags (R19). -/
inductive Flag where
  | c | z | i | d | b | v | n
  deriving DecidableEq, Repr

/-- A flag's value. -/
def State.getFlag (s : State) : Flag → Bool
  | .c => s.flagC
  | .z => s.flagZ
  | .i => s.flagI
  | .d => s.flagD
  | .b => s.flagB
  | .v => s.flagV
  | .n => s.flagN

end Sys2Proof.Machine
end

