-- ==== Sys2Proof/Machine/Operands.lean ====
section
/-! DEFINITION. The addressing-mode resolvers (spec/40_addressing_modes.md R66 to R74) and the choice among them (R94). Each takes the operand that the fetch has
already read and charged for, and gives the effective address with the state after the resolver's own charges and pointer reads. -/

namespace Sys2Proof.Machine

/-- `PageCross(base, result)` (R66). -/
def pageCross (base result : Word) : Bool := (result &&& 0xFF00#16) != (base &&& 0xFF00#16)

/-- `ZP` (R68). -/
def addrZp (d : Byte) (s : State) : Word × State := (Byte.zext d, s)

/-- `ZPX`, `ZPY` (R69): the sum is modulo 256 (D8, log 6) and the extra cycle is always charged. -/
def addrZpi (idx d : Byte) (s : State) : Word × State := (Byte.zext (d + idx), s.charge 1)

/-- `ABS` (R71). -/
def addrAbs (w : Word) (s : State) : Word × State := (w, s)

/-- The indexed sum on 16 bits with its extra cycle, shared by the modes that have two variants (R70, R72, R74). -/
def addIndex (base : Word) (idx : Byte) (always : Bool) (s : State) : Word × State :=
  let result := base + Byte.zext idx
  (result, if always || pageCross base result then s.charge 1 else s)

/-- `ABX`, `ABY` (R72). -/
def addrAbi (idx : Byte) (always : Bool) (base : Word) (s : State) : Word × State := addIndex base idx always s

/-- `IZX` (R73): the pointer address is modulo 256, its high byte comes from the next 16-bit address (D9, log 7). -/
def addrIzx (d : Byte) (s : State) : Word × State := readWord (Byte.zext (d + s.x)) (s.charge 1)

/-- `IZY` (R74): `Y` is added to the pointer word, not to `d`. -/
def addrIzy (always : Bool) (d : Byte) (s : State) : Word × State :=
  let base := readWord (Byte.zext d) s
  addIndex base.1 s.y always base.2

/-- `Addr(mode, always)` of R94: the resolver of a mode on the operand fetched for it; `none` where the mode has no resolver or the
operand is not of its format. -/
def addr (mode : Mode) (always : Bool) (o : Operand) (s : State) : Option (Word × State) :=
  match mode, o with
  | .zp, .d8 d => some (addrZp d s)
  | .zpx, .d8 d => some (addrZpi s.x d s)
  | .zpy, .d8 d => some (addrZpi s.y d s)
  | .abs, .word w => some (addrAbs w s)
  | .abx, .word w => some (addrAbi s.x always w s)
  | .aby, .word w => some (addrAbi s.y always w s)
  | .izx, .d8 d => some (addrIzx d s)
  | .izy, .d8 d => some (addrIzy always d s)
  | _, _ => none

end Sys2Proof.Machine
end

