-- ==== Sys2Proof/Machine/Load.lean ====
section
/-! DEFINITION. The eighteen loads (spec/42_loads.md R100 to R117) over the generic body `LoadBody` (spec/41_execute_loop.md R93).
The state each meaning takes is the one after all bytes of the instruction have been fetched (log 19). -/

namespace Sys2Proof.Machine

/-- The end of `LoadBody` (R93): the register, then `SetZN` of the value written. -/
def loadValue (r : Reg) (v : Byte) (s : State) : State := setZN v (s.setReg r v)

/-- `LoadBody` (R93) for a mode that resolved to an address: `ReadByte`, the register, `SetZN`. -/
def loadFrom (r : Reg) (ea : Word × State) : Host.Outcome State Fault Refusal :=
  let v := readByte ea.1 ea.2
  .next (loadValue r v.1 v.2)

/-- `LoadBody(r, mode, always)` (R93), on the operand fetched. -/
def loadBody (r : Reg) (mode : Mode) (always : Bool) (o : Operand) (s : State) : Host.Outcome State Fault Refusal :=
  match mode, o with
  | .imm, .d8 d => .next (loadValue r d s)
  | _, _ =>
    match addr mode always o s with
    | some ea => loadFrom r ea
    | none => .refused .incompleteBody

/-- `LDA #$dd` (R100). -/
def execLdaImm (d : Byte) (s : State) : Host.Outcome State Fault Refusal := loadBody .a .imm false (.d8 d) s

/-- `LDA $dd` (R101). -/
def execLdaZp (d : Byte) (s : State) : Host.Outcome State Fault Refusal := loadBody .a .zp false (.d8 d) s

/-- `LDA $dd,X` (R102). -/
def execLdaZpx (d : Byte) (s : State) : Host.Outcome State Fault Refusal := loadBody .a .zpx false (.d8 d) s

/-- `LDA $hhll` (R103). -/
def execLdaAbs (w : Word) (s : State) : Host.Outcome State Fault Refusal := loadBody .a .abs false (.word w) s

/-- `LDA $hhll,X` (R104). -/
def execLdaAbx (w : Word) (s : State) : Host.Outcome State Fault Refusal := loadBody .a .abx false (.word w) s

/-- `LDA $hhll,Y` (R105). -/
def execLdaAby (w : Word) (s : State) : Host.Outcome State Fault Refusal := loadBody .a .aby false (.word w) s

/-- `LDA ($dd,X)` (R106). -/
def execLdaIzx (d : Byte) (s : State) : Host.Outcome State Fault Refusal := loadBody .a .izx false (.d8 d) s

/-- `LDA ($dd),Y` (R107). -/
def execLdaIzy (d : Byte) (s : State) : Host.Outcome State Fault Refusal := loadBody .a .izy false (.d8 d) s

/-- `LDX #$dd` (R108). -/
def execLdxImm (d : Byte) (s : State) : Host.Outcome State Fault Refusal := loadBody .x .imm false (.d8 d) s

/-- `LDX $dd` (R109). -/
def execLdxZp (d : Byte) (s : State) : Host.Outcome State Fault Refusal := loadBody .x .zp false (.d8 d) s

/-- `LDX $dd,Y` (R110). -/
def execLdxZpy (d : Byte) (s : State) : Host.Outcome State Fault Refusal := loadBody .x .zpy false (.d8 d) s

/-- `LDX $hhll` (R111). -/
def execLdxAbs (w : Word) (s : State) : Host.Outcome State Fault Refusal := loadBody .x .abs false (.word w) s

/-- `LDX $hhll,Y` (R112). -/
def execLdxAby (w : Word) (s : State) : Host.Outcome State Fault Refusal := loadBody .x .aby false (.word w) s

/-- `LDY #$dd` (R113). -/
def execLdyImm (d : Byte) (s : State) : Host.Outcome State Fault Refusal := loadBody .y .imm false (.d8 d) s

/-- `LDY $dd` (R114). -/
def execLdyZp (d : Byte) (s : State) : Host.Outcome State Fault Refusal := loadBody .y .zp false (.d8 d) s

/-- `LDY $dd,X` (R115). -/
def execLdyZpx (d : Byte) (s : State) : Host.Outcome State Fault Refusal := loadBody .y .zpx false (.d8 d) s

/-- `LDY $hhll` (R116). -/
def execLdyAbs (w : Word) (s : State) : Host.Outcome State Fault Refusal := loadBody .y .abs false (.word w) s

/-- `LDY $hhll,X` (R117). -/
def execLdyAbx (w : Word) (s : State) : Host.Outcome State Fault Refusal := loadBody .y .abx false (.word w) s

end Sys2Proof.Machine
end

