-- ==== Sys2Proof/Machine/Store.lean ====
section
/-! DEFINITION. The thirteen stores (spec/43_stores.md R120 to R132) over the generic body `StoreBody` (spec/41_execute_loop.md R94).
The state each meaning takes is the one after all bytes of the instruction have been fetched (log 19). -/

namespace Sys2Proof.Machine

/-- The end of `StoreBody` (R94): the register written to the resolved address; no register and no flag changes. -/
def storeTo (r : Reg) (ea : Word × State) : Host.Outcome State Fault Refusal :=
  .next (writeByte ea.1 (ea.2.getReg r) ea.2)

/-- `StoreBody(r, mode, always)` (R94), on the operand fetched. -/
def storeBody (r : Reg) (mode : Mode) (always : Bool) (o : Operand) (s : State) : Host.Outcome State Fault Refusal :=
  match addr mode always o s with
  | some ea => storeTo r ea
  | none => .refused .incompleteBody

/-- `STA $dd` (R120). -/
def execStaZp (d : Byte) (s : State) : Host.Outcome State Fault Refusal := storeBody .a .zp false (.d8 d) s

/-- `STA $dd,X` (R121). -/
def execStaZpx (d : Byte) (s : State) : Host.Outcome State Fault Refusal := storeBody .a .zpx false (.d8 d) s

/-- `STA $hhll` (R122). -/
def execStaAbs (w : Word) (s : State) : Host.Outcome State Fault Refusal := storeBody .a .abs false (.word w) s

/-- `STA $hhll,X` (R123). -/
def execStaAbx (w : Word) (s : State) : Host.Outcome State Fault Refusal := storeBody .a .abx true (.word w) s

/-- `STA $hhll,Y` (R124). -/
def execStaAby (w : Word) (s : State) : Host.Outcome State Fault Refusal := storeBody .a .aby true (.word w) s

/-- `STA ($dd,X)` (R125). -/
def execStaIzx (d : Byte) (s : State) : Host.Outcome State Fault Refusal := storeBody .a .izx false (.d8 d) s

/-- `STA ($dd),Y` (R126). -/
def execStaIzy (d : Byte) (s : State) : Host.Outcome State Fault Refusal := storeBody .a .izy true (.d8 d) s

/-- `STX $dd` (R127). -/
def execStxZp (d : Byte) (s : State) : Host.Outcome State Fault Refusal := storeBody .x .zp false (.d8 d) s

/-- `STX $dd,Y` (R128). -/
def execStxZpy (d : Byte) (s : State) : Host.Outcome State Fault Refusal := storeBody .x .zpy false (.d8 d) s

/-- `STX $hhll` (R129). -/
def execStxAbs (w : Word) (s : State) : Host.Outcome State Fault Refusal := storeBody .x .abs false (.word w) s

/-- `STY $dd` (R130). -/
def execStyZp (d : Byte) (s : State) : Host.Outcome State Fault Refusal := storeBody .y .zp false (.d8 d) s

/-- `STY $dd,X` (R131). -/
def execStyZpx (d : Byte) (s : State) : Host.Outcome State Fault Refusal := storeBody .y .zpx false (.d8 d) s

/-- `STY $hhll` (R132). -/
def execStyAbs (w : Word) (s : State) : Host.Outcome State Fault Refusal := storeBody .y .abs false (.word w) s

end Sys2Proof.Machine
end

