-- ==== Sys2Proof/Machine/Fetch.lean ====
section
/-! DEFINITION. Fetching at `PC`: the first half of `Step` (spec/41_execute_loop.md R82) and the operand fetch that every body
begins with (spec/40_addressing_modes.md R67 to R74; spec/44_call_return.md R141). -/

namespace Sys2Proof.Machine

/-- The operand fetch a format calls for: none, `FetchByte()` or `FetchWord()` (R50, R53). -/
def fetchOperand (f : Format) (s : State) : Operand × State :=
  match f with
  | .f1 => (.none, s)
  | .f2 => (.d8 (fetchByte s).1, (fetchByte s).2)
  | .f3 => (.word (fetchWord s).1, (fetchWord s).2)

/-- `at <- PC`, `op <- FetchByte()`, the decode against the map, and either the operand fetch or the report (R82, R151). -/
def fetchInstr (cfg : Config) (s : State) : Fetched :=
  let op := fetchByte s
  match decodeOpcode cfg op.1 with
  | none => .unknown (raiseUnknownOpcode op.1 s.pc op.2)
  | some d =>
    let o := fetchOperand d.mode.format op.2
    .instr ⟨d, o.1⟩ o.2

/-- The bytes at `PC` that the longest instruction would take (R50), in ascending address order. -/
def State.bytesAtPc (s : State) : List Byte := [s.peek s.pc, s.peek (s.pc + 1#16), s.peek (s.pc + 2#16)]

/-- The state after `n` instruction bytes have been fetched: `PC +_16 n` and `n` cycles (R35, R36). -/
def State.afterFetch (s : State) (n : Nat) : State := (s.setPc (s.pc + BitVec.ofNat 16 n)).charge n

end Sys2Proof.Machine
end

