-- ==== Sys2Proof/Machine/Configured.lean ====
section
/-! DEFINITION. The body of an instruction and the step of a machine under any configuration, its opcode map included
(spec/00_scope.md R5; spec/30_encoding.md R56; spec/41_execute_loop.md R82). `exec` and `step`, whose form the host fixes, are these
two at `Config.default`. -/

namespace Sys2Proof.Machine

/-- The body a descriptor selects: the inner match of R82 on the operation kind. -/
def execWith (cfg : Config) (c : Coded) (s : State) : Host.Outcome State Fault Refusal :=
  match c.desc.kind with
  | .load r => loadBody r c.desc.mode c.desc.always c.operand s
  | .store r => storeBody r c.desc.mode c.desc.always c.operand s
  | .call =>
    match c.operand with
    | .word w => execJsrWith cfg w s
    | .d8 _ => .refused .incompleteBody
    | .none => .refused .incompleteBody
  | .ret => execRtsWith cfg s

/-- One whole instruction, or one unknown opcode (R82). -/
def stepWith (cfg : Config) (s : State) : Host.Outcome State Fault Refusal :=
  match fetchInstr cfg s with
  | .instr c t => execWith cfg c t
  | .unknown t => .next t

/-- The body of what the default map selects: `exec` of its row of the table. Every entry of the default map makes such a row
(`decode_default_instr` in `Laws/Decode.lean`), so the second case never arises in a step. -/
def execDefault (c : Coded) (s : State) : Host.Outcome State Fault Refusal :=
  match c.instr? with
  | some i => exec i s
  | none => execWith Config.default c s

end Sys2Proof.Machine
end

