-- ==== Sys2Proof/Machine/Step.lean ====
section
/-! DEFINITION. One step of the core: `Step()` of spec/41_execute_loop.md R82. The budget test is not part of it; it is the loop
test of `Execute` (R81; `Machine/Execute.lean`; log 1). -/

namespace Sys2Proof.Machine

/-- One whole instruction, or one unknown opcode, with the default parameters (R82): `stepWith Config.default`. -/
def step (s : State) : Host.Outcome State Fault Refusal :=
  match fetchInstr Config.default s with
  | .instr c t => execDefault c t
  | .unknown t => .next t

/-- The instruction `w` of `nbits` bits, numbered as the opcode table numbers them, written by raw memory writes at `PC`, where
`step` fetches next (R176; log 16). -/
def State.withFetchWord (s : State) (nbits w : Nat) : State := s.pokeList s.pc (tableWordBytes nbits w)

end Sys2Proof.Machine
end

