-- ==== Sys2Proof/Machine/Execute.lean ====
section
/-! DEFINITION. The `Execute` command and its cycle-accounting state machine (spec/41_execute_loop.md R80 to R84, R87), and the
conditions of the error taxonomy (spec/60_exceptions.md R150 to R153, R156). -/

namespace Sys2Proof.Machine

/-- Running (`cyc > 0`) or Halted (R80): the sign of `cyc`, not separate storage. -/
def State.running (s : State) : Bool := decide (0 < s.cyc)

/-- The loop test of R81: `OutOfBudget` exactly when Halted (R152). -/
def loopTest (s : State) : Option ErrorKind := if s.running then none else some .outOfBudget

/-- The condition the decode of `Step` raises, if any (R150, R156). -/
def stepCondition (cfg : Config) (s : State) : Option ErrorKind :=
  match fetchInstr cfg s with
  | .instr _ _ => none
  | .unknown _ => some .unknownOpcode

/-- The loop of R81, for at most `fuel` steps. A step charges at least 1 (R92), so a fuel of the budget is never short. -/
def executeLoop (cfg : Config) : Nat → State → Host.Outcome State Fault Refusal
  | 0, s => .next s
  | fuel + 1, s =>
    match loopTest s with
    | some _ => .next s
    | none =>
      match stepWith cfg s with
      | .next t => executeLoop cfg fuel t
      | .fault r => .fault r
      | .refused r => .refused r

/-- What `Execute` leaves and returns: the state and `cyclesConsumed` (R81). -/
structure Executed where
  state : State
  cyclesConsumed : Int
  deriving DecidableEq, Repr

/-- `Execute(budget)` (R81): whole steps while `cyc > 0`, then `budget - cyc`. -/
def execute (cfg : Config) (budget : Int) (s : State) : Host.Outcome Executed Fault Refusal :=
  match executeLoop cfg budget.toNat { s with cyc := budget } with
  | .next t => .next ⟨t, budget - t.cyc⟩
  | .fault r => .fault r
  | .refused r => .refused r

end Sys2Proof.Machine
end

