-- ==== Sys2Proof/Machine/HostPort.lean ====
section
/-! DEFINITION. The host's side of the interface (spec/70_reset_and_hazards.md R170 to R177): the commands a caller may give
between two `Execute` calls, on an engine that may not have been reset yet (spec/10_state.md R27). -/

namespace Sys2Proof.Machine

/-- The core and its one memory for the whole life of the model (R28, D30): `none` before the first `Reset`, when no piece of
state has a value (R27, D18; log 13). -/
abbrev Engine := Option State

/-- The 8-bit registers the host can read (R177). -/
inductive ByteReg where
  | a | x | y | sp
  deriving DecidableEq, Repr

/-- Everything the host can do, and nothing else (R177). -/
inductive HostCommand where
  /-- `Reset()` (R170). -/
  | reset
  /-- `M[a] <- v` (R176). -/
  | write (a : Word) (v : Byte)
  /-- Read `M[a]`. -/
  | readCell (a : Word)
  /-- Read `A`, `X`, `Y` or `SP`. -/
  | readReg (r : ByteReg)
  /-- Read `PC`. -/
  | readPc
  /-- Read one flag. -/
  | readFlag (f : Flag)
  /-- Read the diagnostic stream. -/
  | readDiag
  /-- `Execute(budget)` (R81). -/
  | execute (budget : Int)
  deriving DecidableEq, Repr

/-- What the host gets back (R177, last column). -/
inductive HostReply where
  | nothing
  | byte (v : Byte)
  | word (w : Word)
  | bit (b : Bool)
  | reports (d : List Report)
  | cycles (n : Int)
  deriving DecidableEq, Repr

/-- A register the host reads. -/
def State.getByteReg (s : State) : ByteReg → Byte
  | .a => s.a
  | .x => s.x
  | .y => s.y
  | .sp => s.sp

/-- A command on a machine that has been reset: the state after it and the answer (R177). -/
def hostAct (cfg : Config) (c : HostCommand) (s : State) : Host.Outcome (State × HostReply) Fault Refusal :=
  match c with
  | .reset => .next (State.resetWith cfg, .nothing)
  | .write a v => .next (s.poke a v, .nothing)
  | .readCell a => .next (s, .byte (s.peek a))
  | .readReg r => .next (s, .byte (s.getByteReg r))
  | .readPc => .next (s, .word s.pc)
  | .readFlag f => .next (s, .bit (s.getFlag f))
  | .readDiag => .next (s, .reports s.diag)
  | .execute budget =>
    match execute cfg budget s with
    | .next r => .next (r.state, .cycles r.cyclesConsumed)
    | .fault r => .fault r
    | .refused r => .refused r

/-- One host command (R177). Before the first `Reset` only `Reset` is taken; the model has no other move (R27). -/
def hostStep (cfg : Config) (c : HostCommand) (e : Engine) : Host.Outcome (Engine × HostReply) Fault Refusal :=
  match e with
  | none =>
    match c with
    | .reset => .next (some (State.resetWith cfg), .nothing)
    | .write _ _ => .refused .beforeReset
    | .readCell _ => .refused .beforeReset
    | .readReg _ => .refused .beforeReset
    | .readPc => .refused .beforeReset
    | .readFlag _ => .refused .beforeReset
    | .readDiag => .refused .beforeReset
    | .execute _ => .refused .beforeReset
  | some s =>
    match hostAct cfg c s with
    | .next (t, r) => .next (some t, r)
    | .fault r => .fault r
    | .refused r => .refused r

end Sys2Proof.Machine
end

