-- ==== Sys2Proof/Safety.lean ====
section
/-! DEFINITION. The terms in which claims speak: the invariants every step keeps, what counts as a run that stayed inside the
instruction set, and closed forms of the spec's own tables (lengths, effective addresses, cycle totals). -/

namespace Sys2Proof.Machine

/-- The memory is in canonical form. -/
def State.memWf (s : State) : Bool := s.mem.wf

/-- `C`, `I`, `D`, `B`, `V` are 0, as in every state reachable from a `Reset` (spec/10_state.md R23). -/
def State.inertFlagsClear (s : State) : Bool := !s.flagC && !s.flagI && !s.flagD && !s.flagB && !s.flagV

/-- `Z` and `N` are not both 1 (spec/41_execute_loop.md R88). -/
def State.znExclusive (s : State) : Bool := !(s.flagZ && s.flagN)

/-- `SP` is odd or even as `SP_RESET` is, since only `JSR` and `RTS` change it and they change it by 2: odd in every reachable state
with the default `SP_RESET` (spec/44_call_return.md R144). -/
def State.spParity (s : State) (cfg : Config) : Bool := s.sp.getLsbD 0 == cfg.spReset.getLsbD 0

/-- The invariant every step keeps and `Reset` establishes. -/
def State.Inv (s : State) (cfg : Config) : Bool := s.memWf && s.inertFlagsClear && s.znExclusive && s.spParity cfg

/-- The run met no opcode outside the map since `Reset` (R25): the premise under which a claim may be read of the physical part
(spec/93_implementation_defined.md U4). -/
def State.clean (s : State) : Bool := s.diag.isEmpty

/-- The little-endian word at an address and the next one (spec/20_memory.md R41). -/
def State.peekWord (s : State) (a : Word) : Word := Word.ofBytes (s.peek (a + 1#16)) (s.peek a)

/-- What a load of `v` into a register leaves, when its body charges `n` cycles: the register, `Z`, `N` and `cyc` change and
nothing else does (spec/41_execute_loop.md R88, R93). -/
def State.loaded (s : State) (r : Reg) (v : Byte) (n : Nat) : State :=
  match r with
  | .a => { s with a := v, flagZ := v == 0#8, flagN := v.msb, cyc := s.cyc - n }
  | .x => { s with x := v, flagZ := v == 0#8, flagN := v.msb, cyc := s.cyc - n }
  | .y => { s with y := v, flagZ := v == 0#8, flagN := v.msb, cyc := s.cyc - n }

/-- `t` is `s` after one byte `v` went to `ea` and `n` cycles were charged: `ea` reads as `v`, every other address reads as before,
and no field but the memory and `cyc` changes (spec/41_execute_loop.md R94). -/
def State.Stored (s t : State) (ea : Word) (v : Byte) (n : Nat) : Prop :=
  t.peek ea = v ∧ (∀ b, b ≠ ea → t.peek b = s.peek b) ∧ t = { s with mem := t.mem, cyc := s.cyc - n }

/-- `t` is `s` after a call to `w` (spec/44_call_return.md R141): the word `PC -_16 1` at `PushAddr()`, low byte first, every other
address as before, `SP -_8 2`, `PC` the target, `n` cycles charged, and no other field changed. -/
def State.Called (s t : State) (cfg : Config) (w : Word) (n : Nat) : Prop :=
  t.peek (pushAddr cfg s.sp) = Word.lo (s.pc - 1#16) ∧ t.peek (pushAddr cfg s.sp + 1#16) = Word.hi (s.pc - 1#16) ∧
  (∀ b, b ≠ pushAddr cfg s.sp → b ≠ pushAddr cfg s.sp + 1#16 → t.peek b = s.peek b) ∧
  t = { s with pc := w, sp := s.sp - 2#8, cyc := s.cyc - n, mem := t.mem }

/-- What a return leaves when `n` cycles are charged (spec/44_call_return.md R142): `PC` one past the word at `PopAddr()`, `SP +_8 2`,
and no other field changed. -/
def State.returned (s : State) (cfg : Config) (n : Nat) : State :=
  { s with pc := s.peekWord (popAddr cfg s.sp) + 1#16, sp := s.sp + 2#8, cyc := s.cyc - n }

/-- The machine with a configuration behind the host's interface; `core` is the one with the defaults. -/
def coreWith (cfg : Config) : Host.Core where
  State := State
  Fault := Fault
  Refusal := Refusal
  step := stepWith cfg
  reset := State.resetWith cfg

/-- The seven flags set to given values. -/
def State.withFlags (s : State) (c z i d b v n : Bool) : State :=
  { s with flagC := c, flagZ := z, flagI := i, flagD := d, flagB := b, flagV := v, flagN := n }

/-- Every flag of two states is the same. -/
def State.SameFlags (s t : State) : Prop := ∀ f, t.getFlag f = s.getFlag f

end Sys2Proof.Machine

namespace Sys2Proof

open Sys2Proof.Machine

/-- The address each mode gives, in closed form (spec/40_addressing_modes.md R68 to R74); `none` where the mode has no resolver. -/
def Mode.effectiveAddr (s : State) (m : Mode) (o : Operand) : Option Word :=
  match m, o with
  | .zp, .d8 d => some (Byte.zext d)
  | .zpx, .d8 d => some (Byte.zext (d + s.x))
  | .zpy, .d8 d => some (Byte.zext (d + s.y))
  | .abs, .word w => some w
  | .abx, .word w => some (w + Byte.zext s.x)
  | .aby, .word w => some (w + Byte.zext s.y)
  | .izx, .d8 d => some (s.peekWord (Byte.zext (d + s.x)))
  | .izy, .d8 d => some (s.peekWord (Byte.zext d) + Byte.zext s.y)
  | _, _ => none

/-- The effective address of a load or a store; `none` where the instruction has no data access through a resolver (R67;
spec/44_call_return.md R141, R142). -/
def Coded.effectiveAddr (s : State) (c : Coded) : Option Word :=
  match c.desc.kind with
  | .load _ => c.desc.mode.effectiveAddr s c.operand
  | .store _ => c.desc.mode.effectiveAddr s c.operand
  | .call => none
  | .ret => none

/-- The effective address of a row of the table. -/
def Instr.effectiveAddr (s : State) (i : Instr) : Option Word := i.coded.effectiveAddr s

/-- Whether adding the index leaves the page of the base, by the equivalent test of R66: `lo(base) + index >= 256`. -/
def leavesPage (base : Word) (idx : Byte) : Bool := decide (256 ≤ base.toNat % 256 + idx.toNat)

/-- What a resolver charges beyond the operand fetch: the columns "fixed extra", "pointer read" and "conditional extra" of
spec/40_addressing_modes.md R75. -/
def Mode.resolverCycles (s : State) (m : Mode) (always : Bool) (o : Operand) : Nat :=
  match m, o with
  | .zpx, _ => 1
  | .zpy, _ => 1
  | .abx, .word w => if always || leavesPage w s.x then 1 else 0
  | .aby, .word w => if always || leavesPage w s.y then 1 else 0
  | .izx, _ => 3
  | .izy, .d8 d => if always || leavesPage (s.peekWord (Byte.zext d)) s.y then 3 else 2
  | _, _ => 0

/-- What the body charges after the fetch of the instruction's bytes: the resolver and the one data access of a load or a store,
which an immediate load lacks (R75, R93, R94), or the body of R141 or R142. -/
def Coded.bodyCycles (cfg : Config) (s : State) (c : Coded) : Nat :=
  match c.desc.kind with
  | .load _ => if c.desc.mode = .imm then 0 else c.desc.mode.resolverCycles s c.desc.always c.operand + 1
  | .store _ => c.desc.mode.resolverCycles s c.desc.always c.operand + 1
  | .call => 2 + Config.jsrTailCycles
  | .ret => 2 + cfg.rtsTailCycles

/-- The cycle total of an instruction of any map: one cycle for each of its bytes, and its body. -/
def Coded.cycleTotal (cfg : Config) (s : State) (c : Coded) : Nat := c.length + c.bodyCycles cfg s

/-- The cycle totals of the default table, opcode fetch included, as spec/70_reset_and_hazards.md R184 prints them, with the
page-crossing surcharge. -/
def Instr.cycleTotal (s : State) : Instr → Nat
  | .ldaImm _ => 2
  | .ldaZp _ => 3
  | .ldaZpx _ => 4
  | .ldaAbs _ => 4
  | .ldaAbx w => if leavesPage w s.x then 5 else 4
  | .ldaAby w => if leavesPage w s.y then 5 else 4
  | .ldaIzx _ => 6
  | .ldaIzy d => if leavesPage (s.peekWord (Byte.zext d)) s.y then 6 else 5
  | .ldxImm _ => 2
  | .ldxZp _ => 3
  | .ldxZpy _ => 4
  | .ldxAbs _ => 4
  | .ldxAby w => if leavesPage w s.y then 5 else 4
  | .ldyImm _ => 2
  | .ldyZp _ => 3
  | .ldyZpx _ => 4
  | .ldyAbs _ => 4
  | .ldyAbx w => if leavesPage w s.x then 5 else 4
  | .staZp _ => 3
  | .staZpx _ => 4
  | .staAbs _ => 4
  | .staAbx _ => 5
  | .staAby _ => 5
  | .staIzx _ => 6
  | .staIzy _ => 6
  | .stxZp _ => 3
  | .stxZpy _ => 4
  | .stxAbs _ => 4
  | .styZp _ => 3
  | .styZpx _ => 4
  | .styAbs _ => 4
  | .jsr _ => 6
  | .rts => 5

end Sys2Proof
end

