-- ==== Sys2Proof/Certificates/Slice0/Obligations.lean ====
section
/-! DEFINITION. The statements for the provers, each with the rule of spec/ it formalises. `exec i s` takes the state after all
bytes of the instruction have been fetched; `step s` takes the state at the instruction's first byte. Where the spec leaves a
parameter open (R5), a statement quantifies over the configuration `cfg`, its opcode map included: an instruction of any map is a
`Coded`, the descriptor its opcode selects (R56) with its operand, and a row of the default table is `Instr.coded` of it. `exec`,
`step` and `State.reset` are `execWith`, `stepWith` and `State.resetWith` at `Config.default`, which `StepRunsDecodedInstruction`
says. -/

open Sys2Proof Sys2Proof.Machine

/-! ### Encoding -/

/-- Words written out from R55 and R61, one or more per family, decode to what they stand for. The byte values are the spec's
default map, general knowledge (log 3). -/
def Obligations.SpecWordsDecode : Prop :=
  decodeInstr [0xA9#8, 0x42#8] = some (.ldaImm 0x42#8, []) ∧
  decodeInstr [0xAD#8, 0x34#8, 0x12#8] = some (.ldaAbs 0x1234#16, []) ∧
  decodeInstr [0xB6#8, 0x10#8] = some (.ldxZpy 0x10#8, []) ∧
  decodeInstr [0xBC#8, 0x34#8, 0x12#8] = some (.ldyAbx 0x1234#16, []) ∧
  decodeInstr [0x91#8, 0x24#8] = some (.staIzy 0x24#8, []) ∧
  decodeInstr [0x8E#8, 0xFE#8, 0x01#8] = some (.stxAbs 0x01FE#16, []) ∧
  decodeInstr [0x94#8, 0x40#8] = some (.styZpx 0x40#8, []) ∧
  decodeInstr [0x20#8, 0x00#8, 0x02#8] = some (.jsr 0x0200#16, []) ∧
  decodeInstr [0x60#8] = some (.rts, []) ∧
  decode Config.default [0xEA#8, 0x01#8] = .error (.unknownOpcode 0xEA#8)

/-- Decoding an encoded instruction gives it back, whatever bytes follow, for every instruction and every operand value: for every
row of the table with the default map, which encodes every one; and with any map, for every descriptor that a byte of it selects
and every operand of its format (D1, R56). -/
def Obligations.DecodeOfEncodeIsTheInstruction : Prop :=
  (∀ (i : Instr) (rest : List Byte), i.wf = true →
    ∃ bytes, encodeInstr i = some bytes ∧ decodeInstr (bytes ++ rest) = some (i, rest)) ∧
  (∀ (cfg : Config) (c : Coded) (bytes rest : List Byte), encode cfg c = some bytes → decode cfg (bytes ++ rest) = .ok (c, rest)) ∧
  ∀ (cfg : Config) (c : Coded) (op : Byte), decodeOpcode cfg op = some c.desc → c.wf = true → ∃ bytes, encode cfg c = some bytes

/-- The other direction: what the decoder reads is exactly what the encoder would have written, so no bit of an instruction is
dropped and, with the default map, no two byte sequences mean one instruction. With any map the bytes are an opcode that selects the
instruction's descriptor and its operand. -/
def Obligations.EncodeOfDecodeIsTheBytes : Prop :=
  (∀ (bytes rest : List Byte) (i : Instr), decodeInstr bytes = some (i, rest) →
    ∃ own, encodeInstr i = some own ∧ own ++ rest = bytes ∧ i.wf = true) ∧
  ∀ (cfg : Config) (bytes rest : List Byte) (c : Coded), decode cfg bytes = .ok (c, rest) →
    ∃ op, bytes = op :: (c.operand.bytes ++ rest) ∧ decodeOpcode cfg op = some c.desc ∧ c.wf = true

/-- The opcode byte alone selects the descriptor, and the descriptor's mode gives the number of bytes taken, whatever the map
(R52). -/
def Obligations.OpcodeAloneGivesDescriptorAndLength : Prop :=
  ∀ (cfg : Config) (op : Byte) (bytes bytes' rest rest' : List Byte) (c c' : Coded),
    decode cfg (op :: bytes) = .ok (c, rest) → decode cfg (op :: bytes') = .ok (c', rest') →
      c.desc = c'.desc ∧ (op :: bytes).length = c.desc.mode.format.length + rest.length

/-- With the default map 223 byte values are unknown opcodes (R58); with any map a byte outside it is rejected under its own name,
and so is one whose descriptor has no complete body, which is left out of the map (R153; the choice among its two ways: log 24). -/
def Obligations.UnknownBytesAre223 : Prop :=
  ((List.range 256).filter (fun n => (decodeOpcode Config.default (BitVec.ofNat 8 n)).isNone)).length = 223 ∧
  (∀ (cfg : Config) (op : Byte) (rest : List Byte), decodeOpcode cfg op = none →
    decode cfg (op :: rest) = .error (.unknownOpcode op)) ∧
  ∀ (cfg : Config) (op : Byte), decodeOpcode cfg op = none ↔
    ∀ d, lookupOpcode op cfg.opcodeMap = some d → d.complete = false

/-! ### The step -/

/-- When the bytes at `PC` decode to a well-formed instruction, the step is its body on the state after the fetch of its bytes:
`PC` past them and one cycle charged for each (R35, R36, R82). `exec`, `step`, `State.reset` and `core` are the machine with the
default configuration, and the default decoder is the general one. -/
def Obligations.StepRunsDecodedInstruction : Prop :=
  (∀ (s : State) (i : Instr) (rest : List Byte), decodeInstr s.bytesAtPc = some (i, rest) → i.wf = true →
    step s = exec i { s with pc := s.pc + BitVec.ofNat 16 i.length, cyc := s.cyc - i.length }) ∧
  (∀ (cfg : Config) (s : State) (c : Coded) (rest : List Byte), decode cfg s.bytesAtPc = .ok (c, rest) →
    stepWith cfg s = execWith cfg c { s with pc := s.pc + BitVec.ofNat 16 c.length, cyc := s.cyc - c.length }) ∧
  (∀ (bytes rest : List Byte) (i : Instr),
    decodeInstr bytes = some (i, rest) ↔ decode Config.default bytes = .ok (i.coded, rest)) ∧
  (∀ (i : Instr) (s : State), exec i s = execWith Config.default i.coded s) ∧
  (∀ s : State, step s = stepWith Config.default s) ∧
  State.reset = State.resetWith Config.default ∧ core = coreWith Config.default

/-- An opcode byte outside the map: one cycle, `PC` plus one, the report, nothing else (R151). That the report is the pair
appended to `diag` is the spec's own decision D12 (log 10). That a byte whose entry has no complete body is outside the map too, where
R153 and D25 allow a refusal as well, is the model's choice (log 24). -/
def Obligations.UnknownOpcodeStep : Prop :=
  ∀ (cfg : Config) (s : State), decodeOpcode cfg (s.peek s.pc) = none →
    stepWith cfg s = .next { s with pc := s.pc + 1#16, cyc := s.cyc - 1, diag := s.diag ++ [⟨s.peek s.pc, s.pc⟩] }

/-- A step raises nothing and reports nothing, or raises exactly `UnknownOpcode` and appends one report; so the stream only
grows (R25, R153, R156). The form of the report is the spec's decision D12 (log 10). -/
def Obligations.StepRaisesAtMostUnknownOpcode : Prop :=
  ∀ (cfg : Config) (s t : State), stepWith cfg s = .next t →
    (stepCondition cfg s = none ∧ t.diag = s.diag) ∨
    (stepCondition cfg s = some .unknownOpcode ∧ t.diag = s.diag ++ [⟨s.peek s.pc, s.pc⟩])

/-- No step faults or is refused, in any state (R89, R154), with the default configuration and with any. That the second holds of a
map with an entry without a complete body too is the model's choice: such an entry is left out of the map, where R153 and D25 allow a
refusal as well (log 24). -/
def Obligations.StepAlwaysAnswersNext : Prop :=
  (∀ s : State, ∃ t, step s = .next t) ∧ ∀ (cfg : Config) (s : State), ∃ t, stepWith cfg s = .next t

/-- The cost of a step is one cycle for each byte and what the body charges by the columns of R75, with the page-crossing surcharge
decided by `lo(base) + index >= 256` and the variant by the descriptor, whatever the map; with the default map that is the total the
table of R184 prints. An unknown opcode costs 1. The bounds hold with the document's `RTS_TAIL_CYCLES` of 2 and with the physical
part's 3. The opcode set, the variant routing and the cost of `RTS` rest on the spec's decisions D2, D10 and D11 (logs 3, 8, 9). -/
def Obligations.StepCostsTheTableTotal : Prop :=
  (∀ (s t : State) (i : Instr) (rest : List Byte), step s = .next t → decodeInstr s.bytesAtPc = some (i, rest) →
    t.cyc = s.cyc - i.cycleTotal s) ∧
  ∀ (cfg : Config) (s t : State), stepWith cfg s = .next t →
    (∀ c rest, decode cfg s.bytesAtPc = .ok (c, rest) → t.cyc = s.cyc - c.cycleTotal cfg s) ∧
    (decodeOpcode cfg (s.peek s.pc) = none → t.cyc = s.cyc - 1) ∧
    t.cyc ≤ s.cyc - 1 ∧ (cfg.rtsTailCycles ≤ 3 → s.cyc - 6 ≤ t.cyc)

/-- `PC` advances by the length of the instruction, modulo 65536, unless it is a call or a return; by 1 at an unknown opcode
(R13, R14, R15). -/
def Obligations.PcAdvancesByTheLength : Prop :=
  ∀ (cfg : Config) (s t : State), stepWith cfg s = .next t →
    (∀ c rest, decode cfg s.bytesAtPc = .ok (c, rest) → c.desc.kind ≠ .call → c.desc.kind ≠ .ret →
      t.pc = s.pc + BitVec.ofNat 16 c.length) ∧
    (decodeOpcode cfg (s.peek s.pc) = none → t.pc = s.pc + 1#16)

/-! ### What each instruction's body does: loads -/

/-- `LDA #`, `LDX #`, `LDY #`: the operand to the register, `Z` and `N` from it, nothing else (R67, R93, R88); and so for an immediate
load of any map, whichever its `always`. -/
def Obligations.LoadImmediateResult : Prop :=
  (∀ (d : Byte) (s : State),
    exec (.ldaImm d) s = .next { s with a := d, flagZ := d == 0#8, flagN := d.msb } ∧
    exec (.ldxImm d) s = .next { s with x := d, flagZ := d == 0#8, flagN := d.msb } ∧
    exec (.ldyImm d) s = .next { s with y := d, flagZ := d == 0#8, flagN := d.msb }) ∧
  ∀ (cfg : Config) (r : Reg) (always : Bool) (d : Byte) (s : State),
    execWith cfg ⟨⟨.imm, .load r, always⟩, .d8 d⟩ s = .next (s.loaded r d 0)

/-- Zero-page loads: the byte at `zext_16(d)` (R68, R93). -/
def Obligations.LoadZeroPageResult : Prop :=
  ∀ (d : Byte) (s : State),
    exec (.ldaZp d) s = .next (s.loaded .a (s.peek (Byte.zext d)) 1) ∧
    exec (.ldxZp d) s = .next (s.loaded .x (s.peek (Byte.zext d)) 1) ∧
    exec (.ldyZp d) s = .next (s.loaded .y (s.peek (Byte.zext d)) 1)

/-- Zero-page indexed loads: the byte at `zext_16(d +_8 index)`, with the extra cycle always charged (R69, R93). That the sum wraps
inside the zero page is the spec's decision D8 (log 6). -/
def Obligations.LoadZeroPageIndexedResult : Prop :=
  ∀ (d : Byte) (s : State),
    exec (.ldaZpx d) s = .next (s.loaded .a (s.peek (Byte.zext (d + s.x))) 2) ∧
    exec (.ldxZpy d) s = .next (s.loaded .x (s.peek (Byte.zext (d + s.y))) 2) ∧
    exec (.ldyZpx d) s = .next (s.loaded .y (s.peek (Byte.zext (d + s.x))) 2)

/-- Absolute loads: the byte at the operand word (R71, R93). -/
def Obligations.LoadAbsoluteResult : Prop :=
  ∀ (w : Word) (s : State),
    exec (.ldaAbs w) s = .next (s.loaded .a (s.peek w) 1) ∧
    exec (.ldxAbs w) s = .next (s.loaded .x (s.peek w) 1) ∧
    exec (.ldyAbs w) s = .next (s.loaded .y (s.peek w) 1)

/-- Absolute indexed loads: the byte at `base +_16 index`, with one extra cycle exactly when `lo(base) + index >= 256`
(R66, R70, R72, R93). -/
def Obligations.LoadAbsoluteIndexedResult : Prop :=
  ∀ (w : Word) (s : State),
    exec (.ldaAbx w) s = .next (s.loaded .a (s.peek (w + Byte.zext s.x)) (if leavesPage w s.x then 2 else 1)) ∧
    exec (.ldaAby w) s = .next (s.loaded .a (s.peek (w + Byte.zext s.y)) (if leavesPage w s.y then 2 else 1)) ∧
    exec (.ldxAby w) s = .next (s.loaded .x (s.peek (w + Byte.zext s.y)) (if leavesPage w s.y then 2 else 1)) ∧
    exec (.ldyAbx w) s = .next (s.loaded .y (s.peek (w + Byte.zext s.x)) (if leavesPage w s.x then 2 else 1))

/-- `LDA ($dd,X)`: through the little-endian pointer at `zext_16(d +_8 X)` and the next 16-bit address (R73, R93). The wrap of the
pointer address and the high byte at `0x0100` are the spec's decisions D8 and D9 (logs 6, 7). -/
def Obligations.LoadIndexedIndirectResult : Prop :=
  ∀ (d : Byte) (s : State),
    exec (.ldaIzx d) s = .next (s.loaded .a (s.peek (s.peekWord (Byte.zext (d + s.x)))) 4)

/-- `LDA ($dd),Y`: `Y` is added to the pointer word at `zext_16(d)`, with one extra cycle exactly on leaving the page
(R74, R93). The high byte of a pointer at `0xFF` is the spec's decision D9 (log 7). -/
def Obligations.LoadIndirectIndexedResult : Prop :=
  ∀ (d : Byte) (s : State),
    exec (.ldaIzy d) s = .next (s.loaded .a (s.peek (s.peekWord (Byte.zext d) + Byte.zext s.y))
      (if leavesPage (s.peekWord (Byte.zext d)) s.y then 4 else 3))

/-! ### What each instruction's body does: stores -/

/-- Zero-page stores, with their memory frame (R68, R94). -/
def Obligations.StoreZeroPageResult : Prop :=
  ∀ (d : Byte) (s : State),
    (∃ t, exec (.staZp d) s = .next t ∧ s.Stored t (addrZp d s).1 s.a 1) ∧
    (∃ t, exec (.stxZp d) s = .next t ∧ s.Stored t (addrZp d s).1 s.x 1) ∧
    (∃ t, exec (.styZp d) s = .next t ∧ s.Stored t (addrZp d s).1 s.y 1)

/-- Zero-page indexed stores, with their memory frame (R69, R94). The wrap is the spec's decision D8 (log 6). -/
def Obligations.StoreZeroPageIndexedResult : Prop :=
  ∀ (d : Byte) (s : State),
    (∃ t, exec (.staZpx d) s = .next t ∧ s.Stored t (addrZpi s.x d s).1 s.a 2) ∧
    (∃ t, exec (.stxZpy d) s = .next t ∧ s.Stored t (addrZpi s.y d s).1 s.x 2) ∧
    (∃ t, exec (.styZpx d) s = .next t ∧ s.Stored t (addrZpi s.x d s).1 s.y 2)

/-- Absolute stores, with their memory frame (R71, R94). -/
def Obligations.StoreAbsoluteResult : Prop :=
  ∀ (w : Word) (s : State),
    (∃ t, exec (.staAbs w) s = .next t ∧ s.Stored t (addrAbs w s).1 s.a 1) ∧
    (∃ t, exec (.stxAbs w) s = .next t ∧ s.Stored t (addrAbs w s).1 s.x 1) ∧
    (∃ t, exec (.styAbs w) s = .next t ∧ s.Stored t (addrAbs w s).1 s.y 1)

/-- Absolute indexed stores, with their memory frame: the extra cycle is charged whether or not a page is crossed (R70, R72, R94).
The routing of these two opcodes is the spec's decision D10 (log 8). -/
def Obligations.StoreAbsoluteIndexedResult : Prop :=
  ∀ (w : Word) (s : State),
    (∃ t, exec (.staAbx w) s = .next t ∧ s.Stored t (addrAbi s.x true w s).1 s.a 2) ∧
    (∃ t, exec (.staAby w) s = .next t ∧ s.Stored t (addrAbi s.y true w s).1 s.a 2)

/-- The two indirect stores, with their memory frame: 4 cycles each after the fetch, crossing or not (R70, R73, R74, R94). The
pointer wraps and the routing are the spec's decisions D8, D9, D10 (logs 6, 7, 8). -/
def Obligations.StoreIndirectResult : Prop :=
  ∀ (d : Byte) (s : State),
    (∃ t, exec (.staIzx d) s = .next t ∧ s.Stored t (addrIzx d s).1 s.a 4) ∧
    (∃ t, exec (.staIzy d) s = .next t ∧ s.Stored t (addrIzy true d s).1 s.a 4)

/-! ### Call and return -/

/-- `JSR`: the word `PC -_16 1` at `PushAddr()`, low byte first, every other cell kept, `SP -_8 2`, `PC` the target, three cycles
after the fetch, no register or flag (R141); and so for a call of any map, with any `STACK_BASE`. `PushAddr()` and the wraps are the
spec's decisions D6, D7, D28 (logs 5, 14). -/
def Obligations.CallResult : Prop :=
  (∀ (w : Word) (s : State), ∃ t, exec (.jsr w) s = .next t ∧ s.Called t Config.default w 3) ∧
  ∀ (cfg : Config) (c : Coded) (w : Word) (s : State), c.desc.kind = .call → c.operand = .word w →
    ∃ t, execWith cfg c s = .next t ∧ s.Called t cfg w 3

/-- `RTS`: `PC` one past the word at `PopAddr()`, `SP +_8 2`, four cycles after the fetch, memory, registers and flags kept (R142); and
so for a return of any map, with any `STACK_BASE` and with the tail of the configuration. `PopAddr()`, the wraps and the cost are the
spec's decisions D6, D7, D28, D11 (logs 5, 9, 14). -/
def Obligations.ReturnResult : Prop :=
  (∀ s : State, exec .rts s = .next (s.returned Config.default 4)) ∧
  ∀ (cfg : Config) (c : Coded) (s : State), c.desc.kind = .ret → execWith cfg c s = .next (s.returned cfg (2 + cfg.rtsTailCycles))

/-- The call and return round trip (R143): with `SP` where the call left it and the two cells untouched, the return goes to the
instruction after the call and restores `SP`, for every `STACK_BASE` and every map. R143 names no bound on `SP`; under R140 the two
cells are the same ones only from `SP = 2` up (log 22), which is the premise here. -/
def Obligations.CallReturnRoundTrip : Prop :=
  ∀ (cfg : Config) (c r : Coded) (s t u : State), c.desc.kind = .call → r.desc.kind = .ret → 2 ≤ s.sp.toNat →
    execWith cfg c s = .next t → u.sp = t.sp →
    u.peek (pushAddr cfg s.sp) = t.peek (pushAddr cfg s.sp) →
    u.peek (pushAddr cfg s.sp + 1#16) = t.peek (pushAddr cfg s.sp + 1#16) →
      ∃ v, execWith cfg r u = .next v ∧ v.pc = s.pc ∧ v.sp = s.sp

/-- Below `SP = 2` neither cell the return reads, `PopAddr()` and the next one, is one of the two the call wrote: `SP` wraps and the
address does not (R140, R144; the spec's decisions D6, D7, logs 5, 22). -/
def Obligations.ReturnReadsOtherCellsWhenSpWraps : Prop :=
  ∀ (cfg : Config) (c : Coded) (s t : State), c.desc.kind = .call → s.sp.toNat < 2 → execWith cfg c s = .next t →
    popAddr cfg t.sp ≠ pushAddr cfg s.sp ∧ popAddr cfg t.sp ≠ pushAddr cfg s.sp + 1#16 ∧
    popAddr cfg t.sp + 1#16 ≠ pushAddr cfg s.sp ∧ popAddr cfg t.sp + 1#16 ≠ pushAddr cfg s.sp + 1#16

/-! ### All loads and all stores by their descriptor -/

/-- Every load whose mode resolves to an address reads the byte there into its register and applies `SetZN`, charging what R75 gives
after the fetch of its bytes (R93): each row of the table, and each load descriptor of any map, whatever its register, mode and
`always` (R56). The effective address is that of the modes R68 to R74, with the zero-page wrap D8 (log 6) and the pointer's high byte
D9 (log 7); the opcode set and the routing of the table's rows are D2, D10 (logs 3, 8). Immediate loads, which have no effective
address, are `LoadImmediateResult`. -/
def Obligations.LoadsFollowTheirDescriptor : Prop :=
  (∀ (i : Instr) (s : State) (r : Reg) (ea : Word), i.descriptor.kind = .load r → i.effectiveAddr s = some ea →
    exec i s = .next (s.loaded r (s.peek ea) (i.cycleTotal s - i.length))) ∧
  ∀ (cfg : Config) (c : Coded) (s : State) (r : Reg) (ea : Word), c.desc.kind = .load r → c.effectiveAddr s = some ea →
    execWith cfg c s = .next (s.loaded r (s.peek ea) (c.bodyCycles cfg s))

/-- Every store writes its register to the effective address and changes nothing else but `cyc` (R94): each row of the table, and
each store descriptor of any map, whatever its register, mode and `always` (R56). The effective address is that of the modes R68 to
R74, with the zero-page wrap D8 (log 6) and the pointer's high byte D9 (log 7); the opcode set and the routing of the table's rows
are D2, D10 (logs 3, 8). -/
def Obligations.StoresFollowTheirDescriptor : Prop :=
  (∀ (i : Instr) (s : State) (r : Reg) (ea : Word), i.descriptor.kind = .store r → i.effectiveAddr s = some ea →
    ∃ t, exec i s = .next t ∧ s.Stored t ea (s.getReg r) (i.cycleTotal s - i.length)) ∧
  ∀ (cfg : Config) (c : Coded) (s : State) (r : Reg) (ea : Word), c.desc.kind = .store r → c.effectiveAddr s = some ea →
    ∃ t, execWith cfg c s = .next t ∧ s.Stored t ea (s.getReg r) (c.bodyCycles cfg s)

/-! ### Whole steps, one statement per family of the opcode table -/

/-- The eight `LDA` opcodes as whole steps, from the bytes at `PC` (R100 to R107). Opcode values: general knowledge
(log 3); wraps and variants: the spec's decisions D8, D9, D10 (logs 6, 7, 8). -/
def Obligations.StepLda : Prop :=
  ∀ (s : State) (d : Byte) (w : Word), d = s.peek (s.pc + 1#16) → w = s.peekWord (s.pc + 1#16) →
    (s.peek s.pc = 0xA9#8 → step s = .next { s.loaded .a d 2 with pc := s.pc + 2#16 }) ∧
    (s.peek s.pc = 0xA5#8 → step s = .next { s.loaded .a (s.peek (Byte.zext d)) 3 with pc := s.pc + 2#16 }) ∧
    (s.peek s.pc = 0xB5#8 → step s = .next { s.loaded .a (s.peek (Byte.zext (d + s.x))) 4 with pc := s.pc + 2#16 }) ∧
    (s.peek s.pc = 0xAD#8 → step s = .next { s.loaded .a (s.peek w) 4 with pc := s.pc + 3#16 }) ∧
    (s.peek s.pc = 0xBD#8 → step s = .next { s.loaded .a (s.peek (w + Byte.zext s.x))
      (if pageCross w (w + Byte.zext s.x) then 5 else 4) with pc := s.pc + 3#16 }) ∧
    (s.peek s.pc = 0xB9#8 → step s = .next { s.loaded .a (s.peek (w + Byte.zext s.y))
      (if pageCross w (w + Byte.zext s.y) then 5 else 4) with pc := s.pc + 3#16 }) ∧
    (s.peek s.pc = 0xA1#8 → step s = .next { s.loaded .a (s.peek (s.peekWord (Byte.zext (d + s.x)))) 6 with pc := s.pc + 2#16 }) ∧
    (s.peek s.pc = 0xB1#8 → step s = .next { s.loaded .a (s.peek (s.peekWord (Byte.zext d) + Byte.zext s.y))
      (if pageCross (s.peekWord (Byte.zext d)) (s.peekWord (Byte.zext d) + Byte.zext s.y) then 6 else 5) with pc := s.pc + 2#16 })

/-- The five `LDX` opcodes as whole steps (R108 to R112). Opcode values: general knowledge (log 3); wraps and variants: the
spec's decisions D8, D10 (logs 6, 8). -/
def Obligations.StepLdx : Prop :=
  ∀ (s : State) (d : Byte) (w : Word), d = s.peek (s.pc + 1#16) → w = s.peekWord (s.pc + 1#16) →
    (s.peek s.pc = 0xA2#8 → step s = .next { s.loaded .x d 2 with pc := s.pc + 2#16 }) ∧
    (s.peek s.pc = 0xA6#8 → step s = .next { s.loaded .x (s.peek (Byte.zext d)) 3 with pc := s.pc + 2#16 }) ∧
    (s.peek s.pc = 0xB6#8 → step s = .next { s.loaded .x (s.peek (Byte.zext (d + s.y))) 4 with pc := s.pc + 2#16 }) ∧
    (s.peek s.pc = 0xAE#8 → step s = .next { s.loaded .x (s.peek w) 4 with pc := s.pc + 3#16 }) ∧
    (s.peek s.pc = 0xBE#8 → step s = .next { s.loaded .x (s.peek (w + Byte.zext s.y))
      (if pageCross w (w + Byte.zext s.y) then 5 else 4) with pc := s.pc + 3#16 })

/-- The five `LDY` opcodes as whole steps (R113 to R117). Opcode values: general knowledge (log 3); wraps and variants: the
spec's decisions D8, D10 (logs 6, 8). -/
def Obligations.StepLdy : Prop :=
  ∀ (s : State) (d : Byte) (w : Word), d = s.peek (s.pc + 1#16) → w = s.peekWord (s.pc + 1#16) →
    (s.peek s.pc = 0xA0#8 → step s = .next { s.loaded .y d 2 with pc := s.pc + 2#16 }) ∧
    (s.peek s.pc = 0xA4#8 → step s = .next { s.loaded .y (s.peek (Byte.zext d)) 3 with pc := s.pc + 2#16 }) ∧
    (s.peek s.pc = 0xB4#8 → step s = .next { s.loaded .y (s.peek (Byte.zext (d + s.x))) 4 with pc := s.pc + 2#16 }) ∧
    (s.peek s.pc = 0xAC#8 → step s = .next { s.loaded .y (s.peek w) 4 with pc := s.pc + 3#16 }) ∧
    (s.peek s.pc = 0xBC#8 → step s = .next { s.loaded .y (s.peek (w + Byte.zext s.x))
      (if pageCross w (w + Byte.zext s.x) then 5 else 4) with pc := s.pc + 3#16 })

/-- The thirteen store opcodes as whole steps (R120 to R132): the effective address is computed from the state at the opcode,
since the fetch changes neither memory nor an index. Opcode values: general knowledge (log 3); wraps and routing: the spec's
decisions D8, D9, D10 (logs 6, 7, 8). -/
def Obligations.StepStores : Prop :=
  ∀ (s : State) (d : Byte) (w : Word), d = s.peek (s.pc + 1#16) → w = s.peekWord (s.pc + 1#16) →
    let two := { s with pc := s.pc + 2#16 }
    let three := { s with pc := s.pc + 3#16 }
    (s.peek s.pc = 0x85#8 → ∃ t, step s = .next t ∧ two.Stored t (Byte.zext d) s.a 3) ∧
    (s.peek s.pc = 0x95#8 → ∃ t, step s = .next t ∧ two.Stored t (Byte.zext (d + s.x)) s.a 4) ∧
    (s.peek s.pc = 0x8D#8 → ∃ t, step s = .next t ∧ three.Stored t w s.a 4) ∧
    (s.peek s.pc = 0x9D#8 → ∃ t, step s = .next t ∧ three.Stored t (w + Byte.zext s.x) s.a 5) ∧
    (s.peek s.pc = 0x99#8 → ∃ t, step s = .next t ∧ three.Stored t (w + Byte.zext s.y) s.a 5) ∧
    (s.peek s.pc = 0x81#8 → ∃ t, step s = .next t ∧ two.Stored t (s.peekWord (Byte.zext (d + s.x))) s.a 6) ∧
    (s.peek s.pc = 0x91#8 → ∃ t, step s = .next t ∧ two.Stored t (s.peekWord (Byte.zext d) + Byte.zext s.y) s.a 6) ∧
    (s.peek s.pc = 0x86#8 → ∃ t, step s = .next t ∧ two.Stored t (Byte.zext d) s.x 3) ∧
    (s.peek s.pc = 0x96#8 → ∃ t, step s = .next t ∧ two.Stored t (Byte.zext (d + s.y)) s.x 4) ∧
    (s.peek s.pc = 0x8E#8 → ∃ t, step s = .next t ∧ three.Stored t w s.x 4) ∧
    (s.peek s.pc = 0x84#8 → ∃ t, step s = .next t ∧ two.Stored t (Byte.zext d) s.y 3) ∧
    (s.peek s.pc = 0x94#8 → ∃ t, step s = .next t ∧ two.Stored t (Byte.zext (d + s.x)) s.y 4) ∧
    (s.peek s.pc = 0x8C#8 → ∃ t, step s = .next t ∧ three.Stored t w s.y 4)

/-- `JSR` and `RTS` as whole steps: the call saves the address of its own last byte (R141), the return adds the 1 back (R142).
Opcode values and stack addresses: general knowledge and the spec's decisions D6, D7, D11, D28 (logs 3, 5, 9, 14). -/
def Obligations.StepCallAndReturn : Prop :=
  ∀ s : State,
    (s.peek s.pc = 0x20#8 → ∃ t, step s = .next t ∧
      State.Called { s with pc := s.pc + 3#16 } t Config.default (s.peekWord (s.pc + 1#16)) 6) ∧
    (s.peek s.pc = 0x60#8 → step s = .next (s.returned Config.default 5))

/-! ### Reset, invariants and whole-machine rules -/

/-- The reset values the document gives, under any configuration: the three registers (R12), the seven flags (R22) and every memory
cell. -/
def Obligations.ResetClearsRegistersFlagsMemory : Prop :=
  ∀ cfg : Config, (State.resetWith cfg).a = 0#8 ∧ (State.resetWith cfg).x = 0#8 ∧ (State.resetWith cfg).y = 0#8 ∧
    (∀ f, (State.resetWith cfg).getFlag f = false) ∧ ∀ b, (State.resetWith cfg).peek b = 0#8

/-- Reset loads the constant itself into `PC` and reads no word through it: the first opcode is the byte at that address, whatever
memory the host has loaded (R16). `SP` gets its constant too. Both are parameters of the configuration (R5). -/
def Obligations.ResetLoadsTheConstants : Prop :=
  ∀ cfg : Config, (State.resetWith cfg).pc = cfg.resetPc ∧ (State.resetWith cfg).sp = cfg.spReset ∧
    ∀ m : Memory, (fetchByte { State.resetWith cfg with mem := m }).1 = m.read cfg.resetPc

/-- The numbers behind the two constants are the spec's defaults, general knowledge (log 4); that `diag` starts empty is the spec's
decision D12 (log 10); that `cyc` starts at 0 is the model's choice (log 2). -/
def Obligations.ResetConstantsAreTheDefaults : Prop :=
  State.reset.pc = 0xFFFC#16 ∧ State.reset.sp = 0xFF#8 ∧ State.reset.diag = [] ∧ State.reset.cyc = 0

/-- The invariant holds after `Reset`, under every configuration; with the default `SP_RESET` (log 4) it says that `SP` is odd
(R144). -/
def Obligations.ResetMeetsTheInvariant : Prop :=
  State.reset.Inv Config.default = true ∧ (∀ cfg : Config, (State.resetWith cfg).Inv cfg = true) ∧
  ∀ s : State, s.Inv Config.default = true → s.sp.toNat % 2 = 1

/-- Every step keeps the invariant: the memory's canonical form, the inert flags 0, `Z` and `N` not both 1, `SP` of the parity of
`SP_RESET` (R23, R88, R144); with the default parameters, and with any. -/
def Obligations.StepKeepsTheInvariant : Prop :=
  (∀ s t : State, s.Inv Config.default = true → step s = .next t → t.Inv Config.default = true) ∧
  ∀ (cfg : Config) (s t : State), s.Inv cfg = true → stepWith cfg s = .next t → t.Inv cfg = true

/-- Every host command keeps the invariant too, `Reset`, memory writes and whole `Execute` calls included, so it holds of the engine
between any two host commands. The parity of `SP` is relative to the configuration's `SP_RESET`; that it is odd with the default
rests on 0xFF, PRESUMED (log 4). -/
def Obligations.HostCommandsKeepTheInvariant : Prop :=
  ∀ (cfg : Config) (c : HostCommand) (s t : State) (r : HostReply), s.Inv cfg = true →
    hostStep cfg c (some s) = .next (some t, r) → t.Inv cfg = true

/-- No flag is read: a step from a state with other flags leaves the same registers, memory, `cyc` and `diag`. `C`, `I`, `D`, `B`, `V`
are kept; `Z` and `N` are either kept in both runs or the same after both (R20). -/
def Obligations.FlagsAreNeverRead : Prop :=
  ∀ (cfg : Config) (s t : State) (c z i d b v n : Bool), stepWith cfg s = .next t →
    (t.flagC = s.flagC ∧ t.flagI = s.flagI ∧ t.flagD = s.flagD ∧ t.flagB = s.flagB ∧ t.flagV = s.flagV) ∧
    ((t.flagZ = s.flagZ ∧ t.flagN = s.flagN ∧
        stepWith cfg (s.withFlags c z i d b v n) = .next (t.withFlags c z i d b v n)) ∨
      stepWith cfg (s.withFlags c z i d b v n) = .next (t.withFlags c t.flagZ i d b v t.flagN))

/-- Only a load of a register changes it, and only a load changes a flag (R11, R20). -/
def Obligations.OnlyLoadsWriteRegistersAndFlags : Prop :=
  ∀ (cfg : Config) (c : Coded) (s t : State), execWith cfg c s = .next t →
    (∀ r, c.desc.kind ≠ .load r → t.getReg r = s.getReg r) ∧
    (c.desc.kind.setsZN = false → s.SameFlags t)

/-- Only `JSR` and `RTS` change `SP`, by 2, and only their bodies write `PC` (R14, R17). -/
def Obligations.OnlyCallAndReturnMoveSp : Prop :=
  ∀ (cfg : Config) (c : Coded) (s t : State), execWith cfg c s = .next t →
    (c.desc.kind = .call → t.sp = s.sp - 2#8) ∧ (c.desc.kind = .ret → t.sp = s.sp + 2#8) ∧
    (c.desc.kind ≠ .call → c.desc.kind ≠ .ret → t.sp = s.sp ∧ t.pc = s.pc)

/-- Loads, `RTS` and unknown opcodes write no memory cell: a step that changed a cell ran a store or a call (R31, R44). -/
def Obligations.OnlyStoresAndCallsWriteMemory : Prop :=
  ∀ (cfg : Config) (s t : State), stepWith cfg s = .next t → t.mem ≠ s.mem →
    ∃ c rest, decode cfg s.bytesAtPc = .ok (c, rest) ∧ ((∃ r, c.desc.kind = .store r) ∨ c.desc.kind = .call)

/-! ### Memory, primitives, flags, page crossing -/

/-- Two memories in canonical form that read alike everywhere are the same data; and a raw write keeps the form. -/
def Obligations.CanonicalMemoriesAreDetermined : Prop :=
  (∀ m m' : Memory, m.wf = true → m'.wf = true → (∀ a, m.read a = m'.read a) → m = m') ∧
  ∀ (m : Memory) (a : Word) (v : Byte), m.wf = true → (m.write a v).wf = true

/-- `FetchByte`, `ReadByte`, `WriteByte` and `Charge` do what R35, R37, R39 and R85 say and nothing else. -/
def Obligations.BytePrimitives : Prop :=
  ∀ (s : State) (a : Word) (v : Byte) (n : Nat),
    fetchByte s = (s.peek s.pc, { s with pc := s.pc + 1#16, cyc := s.cyc - 1 }) ∧
    readByte a s = (s.peek a, { s with cyc := s.cyc - 1 }) ∧
    (writeByte a v s).peek a = v ∧ (∀ b, b ≠ a → (writeByte a v s).peek b = s.peek b) ∧
    writeByte a v s = { s with mem := (writeByte a v s).mem, cyc := s.cyc - 1 } ∧
    s.charge n = { s with cyc := s.cyc - n }

/-- A word written is the word read back, low byte at the address and high byte at the next one, at every address including
`0xFFFF`; each costs two cycles (R38, R40, R41, R42). -/
def Obligations.WordReadAfterWordWrite : Prop :=
  ∀ (s : State) (a w : Word),
    (readWord a (writeWord a w s)).1 = w ∧ (writeWord a w s).peek a = Word.lo w ∧
    (writeWord a w s).peek (a + 1#16) = Word.hi w ∧
    (∀ b, b ≠ a → b ≠ a + 1#16 → (writeWord a w s).peek b = s.peek b) ∧
    (writeWord a w s).cyc = s.cyc - 2 ∧ (readWord a s).2 = { s with cyc := s.cyc - 2 }

/-- Every 16-bit quantity in memory is little-endian: the operand word of an instruction, the word `FetchWord` and `ReadWord` give,
and the word `WriteWord` leaves, whose low byte a byte read at the same address sees (R41). That the second byte is at the 16-bit
successor, at 0x00FF and 0xFFFF too, is the spec's decision D9 (log 7). -/
def Obligations.WordsAreLittleEndian : Prop :=
  (∀ h l : Byte, (Word.ofBytes h l).toNat = h.toNat * 256 + l.toNat) ∧
  (∀ s : State, (fetchWord s).1 = Word.ofBytes (s.peek (s.pc + 1#16)) (s.peek s.pc)) ∧
  (∀ (s : State) (a : Word), (readWord a s).1 = Word.ofBytes (s.peek (a + 1#16)) (s.peek a)) ∧
  (∀ (s : State) (a w : Word), (readByte a (writeWord a w s)).1 = Word.lo w ∧
    (readByte (a + 1#16) (writeWord a w s)).1 = Word.hi w) ∧
  ∀ (cfg : Config) (op l h : Byte) (rest : List Byte) (d : Descriptor), decodeOpcode cfg op = some d → d.mode.format = .f3 →
    decode cfg (op :: l :: h :: rest) = .ok (⟨d, .word (Word.ofBytes h l)⟩, rest)

/-- A store is seen by the very next fetch: after any store to the byte at `PC`, of the
table or of any map, and after a call to one of the two cells it wrote,
the next byte fetched is the one written (R47, R49). Which two cells a call writes is the spec's decision D6 (log 5). -/
def Obligations.StoreIsSeenByTheNextFetch : Prop :=
  (∀ (i : Instr) (s t : State) (r : Reg), i.descriptor.kind = .store r → i.effectiveAddr s = some s.pc →
    exec i s = .next t → (fetchByte t).1 = s.getReg r) ∧
  (∀ (cfg : Config) (c : Coded) (s t : State) (r : Reg), c.desc.kind = .store r → c.effectiveAddr s = some s.pc →
    execWith cfg c s = .next t → (fetchByte t).1 = s.getReg r) ∧
  ∀ (cfg : Config) (c : Coded) (s t : State), c.desc.kind = .call → execWith cfg c s = .next t →
    (c.operand = .word (pushAddr cfg s.sp) → (fetchByte t).1 = Word.lo (s.pc - 1#16)) ∧
    (c.operand = .word (pushAddr cfg s.sp + 1#16) → (fetchByte t).1 = Word.hi (s.pc - 1#16))

/-- `SetZN(v)`: `Z` is 1 exactly for zero, `N` is bit 7, never both, the other flags and everything else kept; and every load,
of the table or of any map, applies it to the value it left in its register (R88). -/
def Obligations.SetZnAsStated : Prop :=
  (∀ (v : Byte) (s : State),
    ((setZN v s).flagZ = true ↔ v = 0#8) ∧ ((setZN v s).flagN = true ↔ 0x80 ≤ v.toNat) ∧
    ¬ ((setZN v s).flagZ = true ∧ (setZN v s).flagN = true) ∧
    setZN v s = { s with flagZ := (setZN v s).flagZ, flagN := (setZN v s).flagN }) ∧
  (∀ (i : Instr) (s t : State) (r : Reg), i.descriptor.kind = .load r → exec i s = .next t → setZN (t.getReg r) t = t) ∧
  ∀ (cfg : Config) (c : Coded) (s t : State) (r : Reg), c.desc.kind = .load r → execWith cfg c s = .next t → setZN (t.getReg r) t = t

/-- `PageCross` compares the high bytes of its two addresses; of a base and its indexed sum it is the carry of the low-byte
addition, also when the sum wraps past `0xFFFF`; index 0 never crosses (R66). -/
def Obligations.PageCrossIsLowByteCarry : Prop :=
  (∀ base result : Word, pageCross base result = true ↔ result &&& 0xFF00#16 ≠ base &&& 0xFF00#16) ∧
  ∀ (base : Word) (idx : Byte),
    (pageCross base (base + Byte.zext idx) = true ↔ 256 ≤ (Word.lo base).toNat + idx.toNat) ∧
    pageCross base (base + Byte.zext 0#8) = false

/-! ### The `Execute` loop -/

/-- With a positive budget `Execute` returns, Halted, having consumed at least the budget and at most 5 more (R83, R92), with the
document's `RTS_TAIL_CYCLES` of 2 and with any up to 3. The bounds are the spec's own derivation and rest on its decisions D2, D10,
D11 (logs 3, 8, 9). Two choices of the model: that `Execute` answers also where the map has an entry without a complete body, which
R153 and D25 allow to refuse as well (log 24); and that the state left still holds the last `cyc`, which R81 discards, so that it reads
as Halted and gives the count (log 2). -/
def Obligations.ExecuteConsumesTheBudgetAndAtMostFiveMore : Prop :=
  ∀ (cfg : Config) (b : Int) (s : State), 0 < b → ∃ r, execute cfg b s = .next r ∧ r.state.running = false ∧
    r.cyclesConsumed = b - r.state.cyc ∧ b ≤ r.cyclesConsumed ∧ (cfg.rtsTailCycles ≤ 3 → r.cyclesConsumed ≤ b + 5)

/-- A budget of 0 or less executes nothing and returns 0 (R84). The negative case is the spec's decision D13 (log 11); that `cyc`
keeps the budget is the model's choice (log 2). -/
def Obligations.ExecuteOfNoBudgetDoesNothing : Prop :=
  ∀ (cfg : Config) (b : Int) (s : State), b ≤ 0 → execute cfg b s = .next ⟨{ s with cyc := b }, 0⟩

/-- `Execute(budget)` is a run of whole steps from `cyc = budget`, at most `budget` of them, each started with `cyc > 0`, ending at the
first `cyc <= 0`; it returns `budget - cyc`, not negative for a budget of at least 0, and what `cyc` was before it does not matter
(R80, R81; R92, the spec's own derivation). A negative budget is the spec's decision D13 (log 11). Two choices of the model: that
the state left holds the last `cyc`, which R81 discards (log 2); and that `Execute` answers also where the map has an entry without a
complete body, which R153 and D25 allow to refuse as well (log 24). -/
def Obligations.ExecuteIsTheRunToTheFirstHalt : Prop :=
  ∀ (cfg : Config) (b : Int) (s : State), ∃ (r : Executed) (k : Nat), execute cfg b s = .next r ∧ k ≤ b.toNat ∧
    Host.Core.run (coreWith cfg) k { s with cyc := b } = .next r.state ∧ r.state.cyc ≤ 0 ∧
    (∀ j, j < k → ∃ u : State, Host.Core.run (coreWith cfg) j { s with cyc := b } = .next u ∧ 0 < u.cyc) ∧
    r.cyclesConsumed = b - r.state.cyc ∧ (0 ≤ b → 0 ≤ r.cyclesConsumed) ∧
    ∀ c : Int, execute cfg b { s with cyc := c } = execute cfg b s

/-- Two calls run the same steps as one call whose budget is what the first consumed plus the second's (R87): the over-run of the
first is not deducted from the second, which is the spec's decision D14 (log 11). That the states left agree in `cyc` too, which R81
discards, is the model's choice (log 2). -/
def Obligations.ExecuteTwiceIsOnceWithTheSum : Prop :=
  ∀ (cfg : Config) (a b : Int) (s : State) (r q : Executed), 0 ≤ a → 0 ≤ b → execute cfg a s = .next r →
    execute cfg b r.state = .next q →
      execute cfg (r.cyclesConsumed + b) s = .next ⟨q.state, r.cyclesConsumed + q.cyclesConsumed⟩

/-- `Execute(1)` is exactly one step (R165, the spec's own derivation). That the state left keeps the step's `cyc`, which R81 discards,
is the model's choice (log 2). -/
def Obligations.ExecuteOneIsOneStep : Prop :=
  ∀ (cfg : Config) (s t : State), stepWith cfg { s with cyc := 1 } = .next t → execute cfg 1 s = .next ⟨t, 1 - t.cyc⟩

/-- Nothing but `cyc` depends on `cyc`: a step from another count is the same step with the count shifted (R86, R184). -/
def Obligations.StepDoesNotReadTheCycleCounter : Prop :=
  ∀ (cfg : Config) (s t : State) (k : Int), stepWith cfg s = .next t →
    stepWith cfg { s with cyc := s.cyc + k } = .next { t with cyc := t.cyc + k }

/-! ### The host's commands -/

/-- `Reset` gives the same state from every prior state, the one before the first `Reset` included, with every cell zero; so twice is
the same as once (R171). That the one state is the same in `cyc` too, which R170 says `Reset` does not touch, is the model's choice
(log 2). -/
def Obligations.ResetIsIdempotent : Prop :=
  ∀ cfg : Config, ∃ s : State, (∀ e : Engine, hostStep cfg .reset e = .next (some s, .nothing)) ∧ ∀ b, s.peek b = 0#8

/-- Before the first `Reset` every command but `Reset` is refused, under its own name (R27). The refusal is the spec's decision D18
(log 13). -/
def Obligations.CommandsBeforeResetAreRefused : Prop :=
  ∀ (cfg : Config) (c : HostCommand), c ≠ .reset → hostStep cfg c none = .refused .beforeReset

/-- The raw memory operations, as the host has them: a write sets that cell and nothing else and charges nothing, a read changes
nothing and gives the latest write, or 0x00 where there has been none since `Reset` (R32). -/
def Obligations.HostWriteChangesOneCell : Prop :=
  ∀ cfg : Config,
    (∀ (s : State) (a : Word) (v : Byte), ∃ t, hostStep cfg (.write a v) (some s) = .next (some t, .nothing) ∧ s.Stored t a v 0) ∧
    (∀ (s : State) (a : Word), hostStep cfg (.readCell a) (some s) = .next (some s, .byte (s.peek a))) ∧
    ∀ a : Word, hostStep cfg (.readCell a) (some (State.resetWith cfg)) = .next (some (State.resetWith cfg), .byte 0#8)
end

