-- ==== Sys2Proof/Laws/State.lean ====
section
/-! SUPPORT. One lemma per field per update of the state. Each is true by unfolding the update once, so no proof unfolds a record. -/

namespace Sys2Proof.Machine

variable (s : State)

@[simp] theorem State.charge_a (n : Nat) : (s.charge n).a = s.a := rfl
@[simp] theorem State.charge_x (n : Nat) : (s.charge n).x = s.x := rfl
@[simp] theorem State.charge_y (n : Nat) : (s.charge n).y = s.y := rfl
@[simp] theorem State.charge_sp (n : Nat) : (s.charge n).sp = s.sp := rfl
@[simp] theorem State.charge_pc (n : Nat) : (s.charge n).pc = s.pc := rfl
@[simp] theorem State.charge_flagC (n : Nat) : (s.charge n).flagC = s.flagC := rfl
@[simp] theorem State.charge_flagZ (n : Nat) : (s.charge n).flagZ = s.flagZ := rfl
@[simp] theorem State.charge_flagI (n : Nat) : (s.charge n).flagI = s.flagI := rfl
@[simp] theorem State.charge_flagD (n : Nat) : (s.charge n).flagD = s.flagD := rfl
@[simp] theorem State.charge_flagB (n : Nat) : (s.charge n).flagB = s.flagB := rfl
@[simp] theorem State.charge_flagV (n : Nat) : (s.charge n).flagV = s.flagV := rfl
@[simp] theorem State.charge_flagN (n : Nat) : (s.charge n).flagN = s.flagN := rfl
@[simp] theorem State.charge_mem (n : Nat) : (s.charge n).mem = s.mem := rfl
@[simp] theorem State.charge_cyc (n : Nat) : (s.charge n).cyc = s.cyc - (n : Int) := rfl
@[simp] theorem State.charge_diag (n : Nat) : (s.charge n).diag = s.diag := rfl

@[simp] theorem State.poke_a (b : Word) (v : Byte) : (s.poke b v).a = s.a := rfl
@[simp] theorem State.poke_x (b : Word) (v : Byte) : (s.poke b v).x = s.x := rfl
@[simp] theorem State.poke_y (b : Word) (v : Byte) : (s.poke b v).y = s.y := rfl
@[simp] theorem State.poke_sp (b : Word) (v : Byte) : (s.poke b v).sp = s.sp := rfl
@[simp] theorem State.poke_pc (b : Word) (v : Byte) : (s.poke b v).pc = s.pc := rfl
@[simp] theorem State.poke_flagC (b : Word) (v : Byte) : (s.poke b v).flagC = s.flagC := rfl
@[simp] theorem State.poke_flagZ (b : Word) (v : Byte) : (s.poke b v).flagZ = s.flagZ := rfl
@[simp] theorem State.poke_flagI (b : Word) (v : Byte) : (s.poke b v).flagI = s.flagI := rfl
@[simp] theorem State.poke_flagD (b : Word) (v : Byte) : (s.poke b v).flagD = s.flagD := rfl
@[simp] theorem State.poke_flagB (b : Word) (v : Byte) : (s.poke b v).flagB = s.flagB := rfl
@[simp] theorem State.poke_flagV (b : Word) (v : Byte) : (s.poke b v).flagV = s.flagV := rfl
@[simp] theorem State.poke_flagN (b : Word) (v : Byte) : (s.poke b v).flagN = s.flagN := rfl
@[simp] theorem State.poke_mem (b : Word) (v : Byte) : (s.poke b v).mem = s.mem.write b v := rfl
@[simp] theorem State.poke_cyc (b : Word) (v : Byte) : (s.poke b v).cyc = s.cyc := rfl
@[simp] theorem State.poke_diag (b : Word) (v : Byte) : (s.poke b v).diag = s.diag := rfl

@[simp] theorem State.setSp_a (v : Byte) : (s.setSp v).a = s.a := rfl
@[simp] theorem State.setSp_x (v : Byte) : (s.setSp v).x = s.x := rfl
@[simp] theorem State.setSp_y (v : Byte) : (s.setSp v).y = s.y := rfl
@[simp] theorem State.setSp_sp (v : Byte) : (s.setSp v).sp = v := rfl
@[simp] theorem State.setSp_pc (v : Byte) : (s.setSp v).pc = s.pc := rfl
@[simp] theorem State.setSp_flagC (v : Byte) : (s.setSp v).flagC = s.flagC := rfl
@[simp] theorem State.setSp_flagZ (v : Byte) : (s.setSp v).flagZ = s.flagZ := rfl
@[simp] theorem State.setSp_flagI (v : Byte) : (s.setSp v).flagI = s.flagI := rfl
@[simp] theorem State.setSp_flagD (v : Byte) : (s.setSp v).flagD = s.flagD := rfl
@[simp] theorem State.setSp_flagB (v : Byte) : (s.setSp v).flagB = s.flagB := rfl
@[simp] theorem State.setSp_flagV (v : Byte) : (s.setSp v).flagV = s.flagV := rfl
@[simp] theorem State.setSp_flagN (v : Byte) : (s.setSp v).flagN = s.flagN := rfl
@[simp] theorem State.setSp_mem (v : Byte) : (s.setSp v).mem = s.mem := rfl
@[simp] theorem State.setSp_cyc (v : Byte) : (s.setSp v).cyc = s.cyc := rfl
@[simp] theorem State.setSp_diag (v : Byte) : (s.setSp v).diag = s.diag := rfl

@[simp] theorem State.setPc_a (w : Word) : (s.setPc w).a = s.a := rfl
@[simp] theorem State.setPc_x (w : Word) : (s.setPc w).x = s.x := rfl
@[simp] theorem State.setPc_y (w : Word) : (s.setPc w).y = s.y := rfl
@[simp] theorem State.setPc_sp (w : Word) : (s.setPc w).sp = s.sp := rfl
@[simp] theorem State.setPc_pc (w : Word) : (s.setPc w).pc = w := rfl
@[simp] theorem State.setPc_flagC (w : Word) : (s.setPc w).flagC = s.flagC := rfl
@[simp] theorem State.setPc_flagZ (w : Word) : (s.setPc w).flagZ = s.flagZ := rfl
@[simp] theorem State.setPc_flagI (w : Word) : (s.setPc w).flagI = s.flagI := rfl
@[simp] theorem State.setPc_flagD (w : Word) : (s.setPc w).flagD = s.flagD := rfl
@[simp] theorem State.setPc_flagB (w : Word) : (s.setPc w).flagB = s.flagB := rfl
@[simp] theorem State.setPc_flagV (w : Word) : (s.setPc w).flagV = s.flagV := rfl
@[simp] theorem State.setPc_flagN (w : Word) : (s.setPc w).flagN = s.flagN := rfl
@[simp] theorem State.setPc_mem (w : Word) : (s.setPc w).mem = s.mem := rfl
@[simp] theorem State.setPc_cyc (w : Word) : (s.setPc w).cyc = s.cyc := rfl
@[simp] theorem State.setPc_diag (w : Word) : (s.setPc w).diag = s.diag := rfl

@[simp] theorem setZN_a (v : Byte) : (setZN v s).a = s.a := rfl
@[simp] theorem setZN_x (v : Byte) : (setZN v s).x = s.x := rfl
@[simp] theorem setZN_y (v : Byte) : (setZN v s).y = s.y := rfl
@[simp] theorem setZN_sp (v : Byte) : (setZN v s).sp = s.sp := rfl
@[simp] theorem setZN_pc (v : Byte) : (setZN v s).pc = s.pc := rfl
@[simp] theorem setZN_flagC (v : Byte) : (setZN v s).flagC = s.flagC := rfl
@[simp] theorem setZN_flagZ (v : Byte) : (setZN v s).flagZ = (v == 0#8) := rfl
@[simp] theorem setZN_flagI (v : Byte) : (setZN v s).flagI = s.flagI := rfl
@[simp] theorem setZN_flagD (v : Byte) : (setZN v s).flagD = s.flagD := rfl
@[simp] theorem setZN_flagB (v : Byte) : (setZN v s).flagB = s.flagB := rfl
@[simp] theorem setZN_flagV (v : Byte) : (setZN v s).flagV = s.flagV := rfl
@[simp] theorem setZN_flagN (v : Byte) : (setZN v s).flagN = v.msb := rfl
@[simp] theorem setZN_mem (v : Byte) : (setZN v s).mem = s.mem := rfl
@[simp] theorem setZN_cyc (v : Byte) : (setZN v s).cyc = s.cyc := rfl
@[simp] theorem setZN_diag (v : Byte) : (setZN v s).diag = s.diag := rfl

@[simp] theorem raiseUnknownOpcode_a (op : Byte) (b : Word) : (raiseUnknownOpcode op b s).a = s.a := rfl
@[simp] theorem raiseUnknownOpcode_x (op : Byte) (b : Word) : (raiseUnknownOpcode op b s).x = s.x := rfl
@[simp] theorem raiseUnknownOpcode_y (op : Byte) (b : Word) : (raiseUnknownOpcode op b s).y = s.y := rfl
@[simp] theorem raiseUnknownOpcode_sp (op : Byte) (b : Word) : (raiseUnknownOpcode op b s).sp = s.sp := rfl
@[simp] theorem raiseUnknownOpcode_pc (op : Byte) (b : Word) : (raiseUnknownOpcode op b s).pc = s.pc := rfl
@[simp] theorem raiseUnknownOpcode_flagC (op : Byte) (b : Word) : (raiseUnknownOpcode op b s).flagC = s.flagC := rfl
@[simp] theorem raiseUnknownOpcode_flagZ (op : Byte) (b : Word) : (raiseUnknownOpcode op b s).flagZ = s.flagZ := rfl
@[simp] theorem raiseUnknownOpcode_flagI (op : Byte) (b : Word) : (raiseUnknownOpcode op b s).flagI = s.flagI := rfl
@[simp] theorem raiseUnknownOpcode_flagD (op : Byte) (b : Word) : (raiseUnknownOpcode op b s).flagD = s.flagD := rfl
@[simp] theorem raiseUnknownOpcode_flagB (op : Byte) (b : Word) : (raiseUnknownOpcode op b s).flagB = s.flagB := rfl
@[simp] theorem raiseUnknownOpcode_flagV (op : Byte) (b : Word) : (raiseUnknownOpcode op b s).flagV = s.flagV := rfl
@[simp] theorem raiseUnknownOpcode_flagN (op : Byte) (b : Word) : (raiseUnknownOpcode op b s).flagN = s.flagN := rfl
@[simp] theorem raiseUnknownOpcode_mem (op : Byte) (b : Word) : (raiseUnknownOpcode op b s).mem = s.mem := rfl
@[simp] theorem raiseUnknownOpcode_cyc (op : Byte) (b : Word) : (raiseUnknownOpcode op b s).cyc = s.cyc := rfl
@[simp] theorem raiseUnknownOpcode_diag (op : Byte) (b : Word) : (raiseUnknownOpcode op b s).diag = s.diag ++ [⟨op, b⟩] := rfl

@[simp] theorem State.setReg_sp (r : Reg) (v : Byte) : (s.setReg r v).sp = s.sp := by cases r <;> rfl
@[simp] theorem State.setReg_pc (r : Reg) (v : Byte) : (s.setReg r v).pc = s.pc := by cases r <;> rfl
@[simp] theorem State.setReg_flagC (r : Reg) (v : Byte) : (s.setReg r v).flagC = s.flagC := by cases r <;> rfl
@[simp] theorem State.setReg_flagZ (r : Reg) (v : Byte) : (s.setReg r v).flagZ = s.flagZ := by cases r <;> rfl
@[simp] theorem State.setReg_flagI (r : Reg) (v : Byte) : (s.setReg r v).flagI = s.flagI := by cases r <;> rfl
@[simp] theorem State.setReg_flagD (r : Reg) (v : Byte) : (s.setReg r v).flagD = s.flagD := by cases r <;> rfl
@[simp] theorem State.setReg_flagB (r : Reg) (v : Byte) : (s.setReg r v).flagB = s.flagB := by cases r <;> rfl
@[simp] theorem State.setReg_flagV (r : Reg) (v : Byte) : (s.setReg r v).flagV = s.flagV := by cases r <;> rfl
@[simp] theorem State.setReg_flagN (r : Reg) (v : Byte) : (s.setReg r v).flagN = s.flagN := by cases r <;> rfl
@[simp] theorem State.setReg_mem (r : Reg) (v : Byte) : (s.setReg r v).mem = s.mem := by cases r <;> rfl
@[simp] theorem State.setReg_cyc (r : Reg) (v : Byte) : (s.setReg r v).cyc = s.cyc := by cases r <;> rfl
@[simp] theorem State.setReg_diag (r : Reg) (v : Byte) : (s.setReg r v).diag = s.diag := by cases r <;> rfl

/-- Writing a register and reading one back: the register written reads as the value, every other as before (R7, R10). -/
@[simp] theorem State.getReg_setReg (r q : Reg) (v : Byte) :
    (s.setReg r v).getReg q = if q = r then v else s.getReg q := by
  cases r <;> cases q <;> rfl

/-- Two charges are one charge of the sum (R85). -/
@[simp] theorem State.charge_charge (m n : Nat) : (s.charge m).charge n = s.charge (m + n) := by
  simp only [State.charge, Int.sub_sub, Int.natCast_add]

@[simp] theorem State.charge_getReg (n : Nat) (r : Reg) : (s.charge n).getReg r = s.getReg r := by cases r <;> rfl

@[simp] theorem State.poke_getReg (b : Word) (v : Byte) (r : Reg) : (s.poke b v).getReg r = s.getReg r := by
  cases r <;> rfl

/-- A state is its fields: the way two states are shown equal. -/
theorem State.ext_fields {s t : State} (ha : s.a = t.a) (hx : s.x = t.x) (hy : s.y = t.y) (hsp : s.sp = t.sp)
    (hpc : s.pc = t.pc) (hC : s.flagC = t.flagC) (hZ : s.flagZ = t.flagZ) (hI : s.flagI = t.flagI)
    (hD : s.flagD = t.flagD) (hB : s.flagB = t.flagB) (hV : s.flagV = t.flagV) (hN : s.flagN = t.flagN)
    (hm : s.mem = t.mem) (hc : s.cyc = t.cyc) (hd : s.diag = t.diag) : s = t := by
  cases s; cases t; simp_all

end Sys2Proof.Machine
end

