-- ==== Sys2Proof/Laws/Memory.lean ====
section
/-! SUPPORT. The laws of the memory: a read after a write, for every list of cells whatever its form, and the canonical form that
every operation keeps (spec/20_memory.md R32). -/

namespace Sys2Proof.Machine

/-! ### Reading after a write -/

theorem Memory.cellAt_erase (m : Memory) (n k : Nat) :
    Memory.cellAt (Memory.erase n m) k = if k = n then Config.unlistedByte else Memory.cellAt m k := by
  induction m with
  | nil => simp [Memory.erase, Memory.cellAt]
  | cons c m ih =>
    obtain ⟨j, w⟩ := c
    by_cases hj : j = n <;> simp only [Memory.erase, hj, if_true, if_false, ih, Memory.cellAt] <;> grind

theorem Memory.cellAt_insert (m : Memory) (n k : Nat) (v : Byte) (hm : ∀ c ∈ m, c.1 ≠ n) :
    Memory.cellAt (Memory.insert n v m) k = if k = n then v else Memory.cellAt m k := by
  induction m with
  | nil => simp [Memory.insert, Memory.cellAt, eq_comm]
  | cons c m ih =>
    obtain ⟨j, w⟩ := c
    have hj : j ≠ n := hm (j, w) (by simp)
    have ih := ih fun c hc => hm c (by simp [hc])
    by_cases hlt : n < j <;> simp only [Memory.insert, hlt, if_true, if_false, Memory.cellAt] <;> grind

theorem Memory.not_mem_erase (m : Memory) (n : Nat) : ∀ c ∈ Memory.erase n m, c.1 ≠ n := by
  induction m with
  | nil => simp [Memory.erase]
  | cons c m ih =>
    unfold Memory.erase
    split
    · exact ih
    · next hj => exact fun c hc => (List.mem_cons.mp hc).elim (fun h => h ▸ hj) (ih c)

/-- A read after a write: the byte written at that address, what was there at every other (R32). -/
theorem Memory.read_write (m : Memory) (a b : Word) (v : Byte) :
    (m.write a v).read b = if b = a then v else m.read b := by
  have key : (b.toNat = a.toNat) ↔ (b = a) := BitVec.toNat_inj
  unfold Memory.write Memory.read
  split
  · next hv => simp [Memory.cellAt_erase, key, hv]
  · simp only [Memory.cellAt_insert _ _ _ _ (Memory.not_mem_erase m a.toNat), Memory.cellAt_erase, key]
    split <;> rfl

@[simp] theorem State.poke_peek (s : State) (a b : Word) (v : Byte) :
    (s.poke a v).peek b = if b = a then v else s.peek b := Memory.read_write s.mem a b v

@[simp] theorem State.charge_peek (s : State) (n : Nat) (b : Word) : (s.charge n).peek b = s.peek b := rfl

@[simp] theorem State.setPc_peek (s : State) (w b : Word) : (s.setPc w).peek b = s.peek b := rfl

@[simp] theorem State.setSp_peek (s : State) (v : Byte) (b : Word) : (s.setSp v).peek b = s.peek b := rfl

@[simp] theorem setZN_peek (s : State) (v : Byte) (b : Word) : (setZN v s).peek b = s.peek b := rfl

@[simp] theorem State.setReg_peek (s : State) (r : Reg) (v : Byte) (b : Word) : (s.setReg r v).peek b = s.peek b := by
  cases r <;> rfl

@[simp] theorem State.charge_peekWord (s : State) (n : Nat) (b : Word) : (s.charge n).peekWord b = s.peekWord b := rfl

@[simp] theorem State.setPc_peekWord (s : State) (w b : Word) : (s.setPc w).peekWord b = s.peekWord b := rfl

/-- After `Reset` every address reads 0x00 (R32, R33). -/
theorem State.resetWith_peek (cfg : Config) (b : Word) : (State.resetWith cfg).peek b = 0#8 := rfl

/-! ### The canonical form -/

theorem Memory.wfFrom_mono {m : Memory} {n k : Nat} (h : Memory.wfFrom n m = true) (hk : k ≤ n) :
    Memory.wfFrom k m = true := by
  cases m with
  | nil => rfl
  | cons c m =>
    simp only [Memory.wfFrom, Bool.and_eq_true, decide_eq_true_eq] at h ⊢
    exact ⟨⟨⟨hk.trans h.1.1.1, h.1.1.2⟩, h.1.2⟩, h.2⟩

theorem Memory.wfFrom_erase {m : Memory} {n k : Nat} (h : Memory.wfFrom n m = true) :
    Memory.wfFrom n (Memory.erase k m) = true := by
  induction m generalizing n with
  | nil => rfl
  | cons c m ih =>
    obtain ⟨j, w⟩ := c
    simp only [Memory.wfFrom, Bool.and_eq_true, decide_eq_true_eq] at h
    unfold Memory.erase
    split
    · exact Memory.wfFrom_mono (ih h.2) (by omega)
    · simp only [Memory.wfFrom, Bool.and_eq_true, decide_eq_true_eq]
      exact ⟨h.1, ih h.2⟩

theorem Memory.wfFrom_insert {m : Memory} {n k : Nat} {v : Byte} (h : Memory.wfFrom n m = true) (hn : n ≤ k) (hk : k < 65536)
    (hv : v ≠ Config.unlistedByte) (hm : ∀ c ∈ m, c.1 ≠ k) : Memory.wfFrom n (Memory.insert k v m) = true := by
  induction m generalizing n with
  | nil => simp [Memory.insert, Memory.wfFrom, hn, hk, hv]
  | cons c m ih =>
    obtain ⟨j, w⟩ := c
    have hj : j ≠ k := hm (j, w) (by simp)
    simp only [Memory.wfFrom, Bool.and_eq_true, decide_eq_true_eq] at h
    unfold Memory.insert
    split
    · next hlt =>
      simp only [Memory.wfFrom, Bool.and_eq_true, decide_eq_true_eq, bne_iff_ne]
      exact ⟨⟨⟨hn, hk⟩, hv⟩, ⟨⟨by omega, h.1.1.2⟩, by simpa using h.1.2⟩, h.2⟩
    · simp only [Memory.wfFrom, Bool.and_eq_true, decide_eq_true_eq]
      exact ⟨h.1, ih h.2 (by omega) fun c hc => hm c (by simp [hc])⟩

/-- A write keeps the canonical form. -/
theorem Memory.wf_write {m : Memory} (a : Word) (v : Byte) (h : m.wf = true) : (m.write a v).wf = true := by
  unfold Memory.write
  split
  · exact Memory.wfFrom_erase h
  · next hv => exact Memory.wfFrom_insert (Memory.wfFrom_erase h) (Nat.zero_le _) a.isLt hv (Memory.not_mem_erase m _)

/-- The memory after `Reset` is in canonical form. -/
theorem Memory.wf_reset (cfg : Config) : (State.resetWith cfg).mem.wf = true := rfl

/-- The host's fixed reset is in canonical form too. -/
theorem Memory.wf_default_reset : State.reset.mem.wf = true := rfl

/-- A raw write keeps the canonical form. -/
theorem State.memWf_poke {s : State} (a : Word) (v : Byte) (h : s.memWf = true) : (s.poke a v).memWf = true :=
  Memory.wf_write a v h

/-- Raw writes of consecutive bytes keep the canonical form. -/
theorem State.memWf_pokeList {s : State} (a : Word) (vs : List Byte) (h : s.memWf = true) :
    (s.pokeList a vs).memWf = true := by
  induction vs generalizing s a with
  | nil => exact h
  | cons v vs ih => exact ih _ (State.memWf_poke a v h)

end Sys2Proof.Machine
end

