-- ==== Sys2Proof/Laws/Ops.lean ====
section
/-! SUPPORT. One lemma per primitive, per word helper, saying all it does (spec/20_memory.md R35 to R41; spec/00_scope.md R6). -/

namespace Sys2Proof

/-- Taking a word apart and joining it again (R6, R41). -/
@[simp] theorem Word.ofBytes_hi_lo (w : Word) : Word.ofBytes (Word.hi w) (Word.lo w) = w := by
  apply BitVec.eq_of_getLsbD_eq
  intro i hi
  have := w.isLt
  simp only [Word.ofBytes, Word.hi, Word.lo, BitVec.getLsbD_or, BitVec.getLsbD_shiftLeft, BitVec.getLsbD_setWidth,
    BitVec.getLsbD_ushiftRight]
  by_cases h : i < 8
  · simp [h, hi]
  · simp [h, hi, show i - 8 < 8 by omega, show i - 8 < 16 by omega, show 8 + (i - 8) = i by omega]

@[simp] theorem Word.lo_ofBytes (h l : Byte) : Word.lo (Word.ofBytes h l) = l := by
  apply BitVec.eq_of_getLsbD_eq
  intro i hi
  simp [Word.ofBytes, Word.lo, hi]

@[simp] theorem Word.hi_ofBytes (h l : Byte) : Word.hi (Word.ofBytes h l) = h := by
  apply BitVec.eq_of_getLsbD_eq
  intro i hi
  simp [Word.ofBytes, Word.hi, hi, show 8 + i < 16 by omega]

/-- The second byte of a word access is never at the address of the first (R38, R40). -/
theorem Word.succ_ne (a : Word) : a + 1#16 ≠ a := by
  intro h
  have := congrArg BitVec.toNat h
  have := a.isLt
  simp only [BitVec.toNat_add, BitVec.toNat_ofNat] at *
  omega

end Sys2Proof

namespace Sys2Proof.Machine

variable (s : State)

@[simp] theorem State.charge_zero : s.charge 0 = s := by cases s; simp [State.charge]

theorem fetchByte_eq : fetchByte s = (s.peek s.pc, (s.setPc (s.pc + 1#16)).charge 1) := rfl

theorem fetchWord_eq : fetchWord s = (s.peekWord s.pc, (s.setPc (s.pc + 2#16)).charge 2) := rfl

theorem readByte_eq (a : Word) : readByte a s = (s.peek a, s.charge 1) := rfl

theorem readWord_eq (a : Word) : readWord a s = (s.peekWord a, s.charge 2) := by
  simp only [readWord, readByte_eq, State.charge_charge, State.charge_peek, State.peekWord]

theorem writeByte_eq (a : Word) (v : Byte) : writeByte a v s = (s.poke a v).charge 1 := rfl

theorem poke_charge (a : Word) (v : Byte) (n : Nat) : (s.charge n).poke a v = (s.poke a v).charge n := rfl

theorem writeWord_eq (a w : Word) :
    writeWord a w s = ((s.poke a (Word.lo w)).poke (a + 1#16) (Word.hi w)).charge 2 := by
  simp only [writeWord, writeByte_eq, poke_charge, State.charge_charge]

end Sys2Proof.Machine
end

