-- ==== Sys2Proof/Laws/Operands.lean ====
section
/-! SUPPORT. One lemma per resolver and per generic body: the address it gives and the charge it makes
(spec/40_addressing_modes.md R68 to R76; spec/41_execute_loop.md R93, R94; spec/44_call_return.md R141, R142). -/

namespace Sys2Proof.Machine

variable (s : State)

theorem addIndex_eq (base : Word) (idx : Byte) (always : Bool) : addIndex base idx always s =
    (base + Byte.zext idx, s.charge (if always || pageCross base (base + Byte.zext idx) then 1 else 0)) := by
  simp only [addIndex, apply_ite s.charge, State.charge_zero]

theorem addrZp_eq (d : Byte) : addrZp d s = (Byte.zext d, s.charge 0) := by simp [addrZp]

theorem addrAbs_eq (w : Word) : addrAbs w s = (w, s.charge 0) := by simp [addrAbs]

theorem addrZpi_eq (idx d : Byte) : addrZpi idx d s = (Byte.zext (d + idx), s.charge 1) := rfl

theorem addrAbi_eq (base : Word) (idx : Byte) (always : Bool) : addrAbi idx always base s =
    (base + Byte.zext idx, s.charge (if always || pageCross base (base + Byte.zext idx) then 1 else 0)) :=
  addIndex_eq s base idx always

theorem addrIzx_eq (d : Byte) : addrIzx d s = (s.peekWord (Byte.zext (d + s.x)), s.charge 3) := by
  simp [addrIzx, readWord_eq]

theorem addrIzy_eq (d : Byte) (always : Bool) : addrIzy always d s =
    (s.peekWord (Byte.zext d) + Byte.zext s.y,
      s.charge (2 + if always || pageCross (s.peekWord (Byte.zext d)) (s.peekWord (Byte.zext d) + Byte.zext s.y)
        then 1 else 0)) := by
  simp [addrIzy, readWord_eq, addIndex_eq]

/-- The end of a load on a state that has been charged `n`. -/
theorem loadValue_charge (r : Reg) (v : Byte) (n : Nat) : loadValue r v (s.charge n) = s.loaded r v n := by
  cases r <;> rfl

/-- `LoadBody` after a resolver that charged `n` (R93). -/
theorem loadFrom_eq (r : Reg) (ea : Word) (n : Nat) :
    loadFrom r (ea, s.charge n) = .next (s.loaded r (s.peek ea) (n + 1)) := by
  simp [loadFrom, readByte_eq, loadValue_charge]

/-- `StoreBody` after a resolver that charged `n` (R94). -/
theorem storeTo_eq (r : Reg) (ea : Word) (n : Nat) :
    storeTo r (ea, s.charge n) = .next ((s.poke ea (s.getReg r)).charge (n + 1)) := by
  simp [storeTo, writeByte_eq, poke_charge]

/-- One byte written and `n` cycles charged is what `Stored` says. -/
theorem State.stored_poke (ea : Word) (v : Byte) (n : Nat) : s.Stored ((s.poke ea v).charge n) ea v n := by
  refine ⟨by simp, fun b hb => by simp [hb], rfl⟩

/-- The state after a call, as one update (R141). -/
def State.call (s : State) (cfg : Config) (w : Word) (n : Nat) : State :=
  ((((s.poke (pushAddr cfg s.sp) (Word.lo (s.pc - 1#16))).poke (pushAddr cfg s.sp + 1#16) (Word.hi (s.pc - 1#16))).setSp
    (s.sp - 2#8)).setPc w).charge n

/-- The body of `JSR` as one update (R141). -/
theorem execJsrWith_eq (cfg : Config) (w : Word) : execJsrWith cfg w s = .next (s.call cfg w 3) := by
  simp only [execJsrWith, writeWord_eq, State.charge_sp, State.poke_sp, State.call]
  congr 1
  apply State.ext_fields <;> simp [Config.jsrTailCycles]
  omega

/-- The body of `RTS` as one update (R142). -/
theorem execRtsWith_eq (cfg : Config) : execRtsWith cfg s = .next (s.returned cfg (2 + cfg.rtsTailCycles)) := by
  simp only [execRtsWith, readWord_eq]
  congr 1
  apply State.ext_fields <;> simp [State.returned]
  omega

/-! ### The fields of a loaded state -/

theorem State.loaded_getReg (r q : Reg) (v : Byte) (n : Nat) :
    (s.loaded r v n).getReg q = if q = r then v else s.getReg q := by
  cases r <;> cases q <;> rfl

@[simp] theorem State.loaded_sp (r : Reg) (v : Byte) (n : Nat) : (s.loaded r v n).sp = s.sp := by cases r <;> rfl
@[simp] theorem State.loaded_pc (r : Reg) (v : Byte) (n : Nat) : (s.loaded r v n).pc = s.pc := by cases r <;> rfl
@[simp] theorem State.loaded_flagC (r : Reg) (v : Byte) (n : Nat) : (s.loaded r v n).flagC = s.flagC := by cases r <;> rfl
@[simp] theorem State.loaded_flagZ (r : Reg) (v : Byte) (n : Nat) : (s.loaded r v n).flagZ = (v == 0#8) := by cases r <;> rfl
@[simp] theorem State.loaded_flagI (r : Reg) (v : Byte) (n : Nat) : (s.loaded r v n).flagI = s.flagI := by cases r <;> rfl
@[simp] theorem State.loaded_flagD (r : Reg) (v : Byte) (n : Nat) : (s.loaded r v n).flagD = s.flagD := by cases r <;> rfl
@[simp] theorem State.loaded_flagB (r : Reg) (v : Byte) (n : Nat) : (s.loaded r v n).flagB = s.flagB := by cases r <;> rfl
@[simp] theorem State.loaded_flagV (r : Reg) (v : Byte) (n : Nat) : (s.loaded r v n).flagV = s.flagV := by cases r <;> rfl
@[simp] theorem State.loaded_flagN (r : Reg) (v : Byte) (n : Nat) : (s.loaded r v n).flagN = v.msb := by cases r <;> rfl
@[simp] theorem State.loaded_mem (r : Reg) (v : Byte) (n : Nat) : (s.loaded r v n).mem = s.mem := by cases r <;> rfl
@[simp] theorem State.loaded_cyc (r : Reg) (v : Byte) (n : Nat) : (s.loaded r v n).cyc = s.cyc - n := by cases r <;> rfl
@[simp] theorem State.loaded_diag (r : Reg) (v : Byte) (n : Nat) : (s.loaded r v n).diag = s.diag := by cases r <;> rfl

/-! ### The fields of a state after a call and after a return -/

variable (cfg : Config)

@[simp] theorem State.call_a (w : Word) (n : Nat) : (s.call cfg w n).a = s.a := by
  simp only [State.call, State.charge_a, State.setPc_a, State.setSp_a, State.poke_a]
@[simp] theorem State.call_x (w : Word) (n : Nat) : (s.call cfg w n).x = s.x := by
  simp only [State.call, State.charge_x, State.setPc_x, State.setSp_x, State.poke_x]
@[simp] theorem State.call_y (w : Word) (n : Nat) : (s.call cfg w n).y = s.y := by
  simp only [State.call, State.charge_y, State.setPc_y, State.setSp_y, State.poke_y]
@[simp] theorem State.call_sp (w : Word) (n : Nat) : (s.call cfg w n).sp = s.sp - 2#8 := by
  simp only [State.call, State.charge_sp, State.setPc_sp, State.setSp_sp]
@[simp] theorem State.call_pc (w : Word) (n : Nat) : (s.call cfg w n).pc = w := by
  simp only [State.call, State.charge_pc, State.setPc_pc]
@[simp] theorem State.call_flagC (w : Word) (n : Nat) : (s.call cfg w n).flagC = s.flagC := by
  simp only [State.call, State.charge_flagC, State.setPc_flagC, State.setSp_flagC, State.poke_flagC]
@[simp] theorem State.call_flagZ (w : Word) (n : Nat) : (s.call cfg w n).flagZ = s.flagZ := by
  simp only [State.call, State.charge_flagZ, State.setPc_flagZ, State.setSp_flagZ, State.poke_flagZ]
@[simp] theorem State.call_flagI (w : Word) (n : Nat) : (s.call cfg w n).flagI = s.flagI := by
  simp only [State.call, State.charge_flagI, State.setPc_flagI, State.setSp_flagI, State.poke_flagI]
@[simp] theorem State.call_flagD (w : Word) (n : Nat) : (s.call cfg w n).flagD = s.flagD := by
  simp only [State.call, State.charge_flagD, State.setPc_flagD, State.setSp_flagD, State.poke_flagD]
@[simp] theorem State.call_flagB (w : Word) (n : Nat) : (s.call cfg w n).flagB = s.flagB := by
  simp only [State.call, State.charge_flagB, State.setPc_flagB, State.setSp_flagB, State.poke_flagB]
@[simp] theorem State.call_flagV (w : Word) (n : Nat) : (s.call cfg w n).flagV = s.flagV := by
  simp only [State.call, State.charge_flagV, State.setPc_flagV, State.setSp_flagV, State.poke_flagV]
@[simp] theorem State.call_flagN (w : Word) (n : Nat) : (s.call cfg w n).flagN = s.flagN := by
  simp only [State.call, State.charge_flagN, State.setPc_flagN, State.setSp_flagN, State.poke_flagN]
@[simp] theorem State.call_cyc (w : Word) (n : Nat) : (s.call cfg w n).cyc = s.cyc - n := by
  simp only [State.call, State.charge_cyc, State.setPc_cyc, State.setSp_cyc, State.poke_cyc]
@[simp] theorem State.call_diag (w : Word) (n : Nat) : (s.call cfg w n).diag = s.diag := by
  simp only [State.call, State.charge_diag, State.setPc_diag, State.setSp_diag, State.poke_diag]
@[simp] theorem State.call_getReg (w : Word) (n : Nat) (r : Reg) : (s.call cfg w n).getReg r = s.getReg r := by
  cases r <;> simp only [State.getReg, State.call_a, State.call_x, State.call_y]
theorem State.call_mem (w : Word) (n : Nat) : (s.call cfg w n).mem = (s.mem.write (pushAddr cfg s.sp) (Word.lo (s.pc - 1#16))).write
    (pushAddr cfg s.sp + 1#16) (Word.hi (s.pc - 1#16)) := by
  simp only [State.call, State.charge_mem, State.setPc_mem, State.setSp_mem, State.poke_mem]

/-- The update a call makes is what `Called` says. -/
theorem State.called_call (w : Word) (n : Nat) : s.Called (s.call cfg w n) cfg w n := by
  refine ⟨?_, ?_, fun b h1 h2 => ?_, ?_⟩
  · simp [State.call, (Word.succ_ne (pushAddr cfg s.sp)).symm]
  · simp [State.call]
  · simp [State.call, h1, h2]
  · apply State.ext_fields <;> simp only [State.call_a, State.call_x, State.call_y, State.call_sp, State.call_pc, State.call_flagC,
      State.call_flagZ, State.call_flagI, State.call_flagD, State.call_flagB, State.call_flagV, State.call_flagN, State.call_cyc,
      State.call_diag]

@[simp] theorem State.returned_a (n : Nat) : (s.returned cfg n).a = s.a := rfl
@[simp] theorem State.returned_x (n : Nat) : (s.returned cfg n).x = s.x := rfl
@[simp] theorem State.returned_y (n : Nat) : (s.returned cfg n).y = s.y := rfl
@[simp] theorem State.returned_sp (n : Nat) : (s.returned cfg n).sp = s.sp + 2#8 := rfl
@[simp] theorem State.returned_pc (n : Nat) : (s.returned cfg n).pc = s.peekWord (popAddr cfg s.sp) + 1#16 := rfl
@[simp] theorem State.returned_flagC (n : Nat) : (s.returned cfg n).flagC = s.flagC := rfl
@[simp] theorem State.returned_flagZ (n : Nat) : (s.returned cfg n).flagZ = s.flagZ := rfl
@[simp] theorem State.returned_flagI (n : Nat) : (s.returned cfg n).flagI = s.flagI := rfl
@[simp] theorem State.returned_flagD (n : Nat) : (s.returned cfg n).flagD = s.flagD := rfl
@[simp] theorem State.returned_flagB (n : Nat) : (s.returned cfg n).flagB = s.flagB := rfl
@[simp] theorem State.returned_flagV (n : Nat) : (s.returned cfg n).flagV = s.flagV := rfl
@[simp] theorem State.returned_flagN (n : Nat) : (s.returned cfg n).flagN = s.flagN := rfl
@[simp] theorem State.returned_mem (n : Nat) : (s.returned cfg n).mem = s.mem := rfl
@[simp] theorem State.returned_cyc (n : Nat) : (s.returned cfg n).cyc = s.cyc - n := rfl
@[simp] theorem State.returned_diag (n : Nat) : (s.returned cfg n).diag = s.diag := rfl
@[simp] theorem State.returned_getReg (n : Nat) (r : Reg) : (s.returned cfg n).getReg r = s.getReg r := by cases r <;> rfl

end Sys2Proof.Machine
end

