-- ==== Sys2Proof/Laws/Decode.lean ====
section
/-! SUPPORT. The opcode map inverted, the map's rows kept apart, and the fetch as one update of the state
(spec/30_encoding.md R50 to R58; spec/41_execute_loop.md R82). -/

namespace Sys2Proof

/-- What `opcodeOf` gives selects the descriptor it was asked for. -/
theorem opcodeOf_spec {cfg : Config} {d : Descriptor} {op : Byte} (h : opcodeOf cfg d = some op) : decodeOpcode cfg op = some d := by
  obtain ⟨row, hrow, rfl⟩ := Option.map_eq_some_iff.mp h
  simpa using List.find?_some hrow

/-- A descriptor that a byte selects has a complete body and stands in the map. -/
theorem decodeOpcode_spec {cfg : Config} {op : Byte} {d : Descriptor} (h : decodeOpcode cfg op = some d) :
    d.complete = true ∧ lookupOpcode op cfg.opcodeMap = some d := by
  obtain ⟨hl, hc⟩ := Option.filter_eq_some_iff.mp h
  exact ⟨hc, hl⟩

/-- What a map gives for a byte is one of its entries. -/
theorem lookupOpcode_mem {op : Byte} {d : Descriptor} : ∀ {rows : List (Byte × Descriptor)}, lookupOpcode op rows = some d →
    (op, d) ∈ rows
  | [], h => by simp [lookupOpcode] at h
  | (k, e) :: rows, h => by
    unfold lookupOpcode at h
    split at h
    · next hk => exact List.mem_cons.mpr (.inl (Prod.ext hk (Option.some.inj h).symm))
    · exact List.mem_cons_of_mem _ (lookupOpcode_mem h)

/-- No two rows of the default map overlap: every mask is the whole byte (R51), so the bytes must differ. -/
theorem defaultOpcodeMap_nodup : (defaultOpcodeMap.map Prod.fst).Nodup := by decide

/-- No two rows of the default map have one descriptor. -/
theorem defaultOpcodeMap_descriptors_nodup : (defaultOpcodeMap.map Prod.snd).Nodup := by decide

/-- The default map has 33 rows (R55). -/
theorem defaultOpcodeMap_length : defaultOpcodeMap.length = 33 := rfl

/-- In the default map a byte's descriptor leads back to that byte. -/
theorem opcodeOf_decodeOpcode_default {op : Byte} {d : Descriptor} (h : decodeOpcode Config.default op = some d) :
    opcodeOf Config.default d = some op := by
  have all : ∀ row ∈ defaultOpcodeMap, opcodeOf Config.default row.2 = some row.1 := by decide
  exact all _ (lookupOpcode_mem (decodeOpcode_spec h).2)

/-- A row of the table is read back from what its opcode selects and its operand. -/
theorem Instr.coded_instr? (i : Instr) : i.coded.instr? = some i := by cases i <;> rfl

/-- What is read as a row of the table is that row's descriptor and operand. -/
theorem Coded.instr?_eq_some {c : Coded} {i : Instr} (h : c.instr? = some i) : c = i.coded := by
  obtain ⟨⟨m, k, al⟩, o⟩ := c
  cases k with
  | load r => cases r <;> cases m <;> cases al <;> cases o <;> first | (cases h; rfl) | exact nomatch h
  | store r => cases r <;> cases m <;> cases al <;> cases o <;> first | (cases h; rfl) | exact nomatch h
  | call => cases m <;> cases al <;> cases o <;> first | (cases h; rfl) | exact nomatch h
  | ret => cases m <;> cases al <;> cases o <;> first | (cases h; rfl) | exact nomatch h

/-- Every row of the table is well formed. -/
theorem Instr.coded_wf (i : Instr) : i.coded.wf = true ∧ i.wf = true := by cases i <;> exact ⟨rfl, rfl⟩

/-- The operand has the bytes the mode's format leaves after the opcode. -/
theorem Operand.bytes_length (o : Operand) : o.bytes.length + 1 = o.format.length := by cases o <;> rfl

/-- The operand taken from a list is of the format asked for, and its bytes are those taken. -/
theorem takeOperand_spec {f : Format} {bytes rest : List Byte} {o : Operand} (h : takeOperand f bytes = some (o, rest)) :
    bytes = o.bytes ++ rest ∧ o.format = f := by
  unfold takeOperand at h
  split at h <;> cases h <;> simp [Operand.bytes, Operand.format, wordBytes]

/-- The bytes of an operand give it back, whatever comes after. -/
theorem takeOperand_bytes (o : Operand) (rest : List Byte) : takeOperand o.format (o.bytes ++ rest) = some (o, rest) := by
  cases o <;> simp [Operand.bytes, Operand.format, takeOperand, wordBytes]

/-- What decodes, byte for byte: an opcode of the instruction's descriptor, its operand, and the rest; and it is well formed. -/
theorem decode_ok {cfg : Config} {bytes rest : List Byte} {c : Coded} (h : decode cfg bytes = .ok (c, rest)) :
    ∃ op, bytes = op :: (c.operand.bytes ++ rest) ∧ decodeOpcode cfg op = some c.desc ∧ c.wf = true := by
  match bytes with
  | [] => cases h
  | op :: bs =>
    unfold decode at h
    cases hd : decodeOpcode cfg op with
    | none => simp [hd] at h
    | some d =>
      cases ht : takeOperand d.mode.format bs with
      | none => simp [hd, ht] at h
      | some p =>
        obtain ⟨o, r⟩ := p
        simp only [hd, ht, Except.ok.injEq, Prod.mk.injEq] at h
        obtain ⟨rfl, rfl⟩ := h
        obtain ⟨rfl, hf⟩ := takeOperand_spec ht
        exact ⟨op, rfl, hd, by simp [Coded.wf, (decodeOpcode_spec hd).1, hf]⟩

/-- The other way: an opcode of the instruction's descriptor followed by its operand decodes to it, whatever comes after. -/
theorem decode_of_row {cfg : Config} {op : Byte} {c : Coded} (h : decodeOpcode cfg op = some c.desc) (hw : c.wf = true)
    (rest : List Byte) : decode cfg (op :: (c.operand.bytes ++ rest)) = .ok (c, rest) := by
  have hf : c.operand.format = c.desc.mode.format := by simpa using (Bool.and_eq_true_iff.mp hw).2
  simp [decode, h, ← hf, takeOperand_bytes]

/-- What decodes with the default map is a row of the table. -/
theorem decode_default_instr {bytes rest : List Byte} {c : Coded} (h : decode Config.default bytes = .ok (c, rest)) :
    ∃ i : Instr, c = i.coded := by
  obtain ⟨op, -, hd, hw⟩ := decode_ok h
  have all : ∀ row ∈ defaultOpcodeMap, ∀ o : Operand, o.format = row.2.mode.format → ∃ i, (⟨row.2, o⟩ : Coded).instr? = some i := by
    intro row hr o ho
    simp only [defaultOpcodeMap, List.mem_cons, List.not_mem_nil, or_false] at hr
    rcases hr with rfl | rfl | rfl | rfl | rfl | rfl | rfl | rfl | rfl | rfl | rfl | rfl | rfl | rfl | rfl | rfl | rfl | rfl | rfl |
      rfl | rfl | rfl | rfl | rfl | rfl | rfl | rfl | rfl | rfl | rfl | rfl | rfl | rfl <;>
      cases o <;> first | exact ⟨_, rfl⟩ | exact nomatch ho
  obtain ⟨i, hi⟩ := all _ (lookupOpcode_mem (decodeOpcode_spec hd).2) c.operand (by simpa using (Bool.and_eq_true_iff.mp hw).2)
  exact ⟨i, Coded.instr?_eq_some hi⟩

/-- `decodeInstr` reads a row of the table exactly where the decoder with the default map reads that row's descriptor and operand. -/
theorem decodeInstr_iff {bytes rest : List Byte} {i : Instr} :
    decodeInstr bytes = some (i, rest) ↔ decode Config.default bytes = .ok (i.coded, rest) := by
  unfold decodeInstr
  constructor
  · intro h
    split at h
    · next c r hc =>
      obtain ⟨j, hj, hp⟩ := Option.map_eq_some_iff.mp h
      cases hp
      rw [hc, Coded.instr?_eq_some hj]
    · cases h
  · intro h
    simp [h, Instr.coded_instr?]

end Sys2Proof

namespace Sys2Proof.Machine

variable (s : State)

/-- Fetching an unknown opcode: one byte fetched and one report (R151). -/
theorem fetchInstr_unknown {cfg : Config} (h : decodeOpcode cfg (s.peek s.pc) = none) :
    fetchInstr cfg s = .unknown (raiseUnknownOpcode (s.peek s.pc) s.pc (s.afterFetch 1)) := by
  simp only [fetchInstr, fetchByte_eq, h]
  rfl

/-- Fetching all the bytes of an instruction in two goes is fetching them in one. -/
theorem fetch_then_fetch (n : Nat) :
    ((((s.setPc (s.pc + 1#16)).charge 1).setPc (s.pc + 1#16 + BitVec.ofNat 16 n)).charge n) = s.afterFetch (n + 1) := by
  apply State.ext_fields <;> simp [State.afterFetch, BitVec.add_assoc, BitVec.ofNat_add, BitVec.add_comm 1#16]
  omega

/-- The operand that stands at `PC` after its opcode, in the format asked for (R50, R53). -/
def State.operandAtPc (s : State) (f : Format) : Operand :=
  match f with
  | .f1 => .none
  | .f2 => .d8 (s.peek (s.pc + 1#16))
  | .f3 => .word (s.peekWord (s.pc + 1#16))

theorem State.operandAtPc_format (f : Format) : (s.operandAtPc f).format = f := by cases f <;> rfl

/-- Fetching a known opcode: its operand bytes, and the state after all of them (R50, R53). -/
theorem fetchInstr_known {cfg : Config} {d : Descriptor} (h : decodeOpcode cfg (s.peek s.pc) = some d) :
    fetchInstr cfg s = .instr ⟨d, s.operandAtPc d.mode.format⟩ (s.afterFetch d.mode.format.length) := by
  simp only [fetchInstr, fetchByte_eq, h]
  cases d.mode.format
  · rfl
  · simp only [fetchOperand, Format.length, ← fetch_then_fetch s 1]
    rfl
  · simp only [fetchOperand, fetchWord_eq, Format.length, ← fetch_then_fetch s 2]
    rfl

/-- The decoder reads from the bytes at `PC` what the fetch gives. -/
theorem decode_bytesAtPc {cfg : Config} {d : Descriptor} (h : decodeOpcode cfg (s.peek s.pc) = some d) :
    ∃ rest, decode cfg s.bytesAtPc = .ok (⟨d, s.operandAtPc d.mode.format⟩, rest) := by
  simp only [State.bytesAtPc, decode, h]
  cases d.mode.format
  · exact ⟨_, rfl⟩
  · exact ⟨_, rfl⟩
  · exact ⟨_, by simp only [takeOperand, State.operandAtPc, State.peekWord, BitVec.add_assoc]; rfl⟩

@[simp] theorem State.afterFetch_peek (n : Nat) (b : Word) : (s.afterFetch n).peek b = s.peek b := rfl
@[simp] theorem State.afterFetch_peekWord (n : Nat) (b : Word) : (s.afterFetch n).peekWord b = s.peekWord b := rfl
@[simp] theorem State.afterFetch_pc (n : Nat) : (s.afterFetch n).pc = s.pc + BitVec.ofNat 16 n := rfl
@[simp] theorem State.afterFetch_cyc (n : Nat) : (s.afterFetch n).cyc = s.cyc - (n : Int) := rfl

end Sys2Proof.Machine
end

