-- ==== Sys2Proof/Laws/Exec.lean ====
section
/-! SUPPORT. What the body of an instruction can do, said once: a load, a store, a call or a return (spec/41_execute_loop.md R82,
R93, R94). Proofs over all instructions cite this instead of unfolding `exec`. -/

namespace Sys2Proof.Machine

/-- What a body leaves, as one of four updates of the state with the charge it makes. -/
inductive Effect where
  | load (r : Reg) (v : Byte) (n : Nat)
  | store (r : Reg) (ea : Word) (n : Nat)
  | call (cfg : Config) (w : Word)
  | ret (cfg : Config)

/-- The state an effect leaves. -/
def Effect.apply (s : State) : Effect → State
  | .load r v n => s.loaded r v n
  | .store r ea n => (s.poke ea (s.getReg r)).charge n
  | .call cfg w => s.call cfg w 3
  | .ret cfg => s.returned cfg (2 + cfg.rtsTailCycles)

/-- The operation kind (R56) of an effect. -/
def Effect.kind : Effect → Kind
  | .load r _ _ => .load r
  | .store r _ _ => .store r
  | .call _ _ => .call
  | .ret _ => .ret

/-- The cycles an effect charges. -/
def Effect.charges : Effect → Nat
  | .load _ _ n => n
  | .store _ _ n => n
  | .call _ _ => 3
  | .ret cfg => 2 + cfg.rtsTailCycles

/-- The extra cycle of an indexed resolver (R70). -/
def crossingExtra (base : Word) (idx : Byte) : Nat := if pageCross base (base + Byte.zext idx) then 1 else 0

end Sys2Proof.Machine

namespace Sys2Proof

open Sys2Proof.Machine

/-- What a resolver charges after the operand fetch (R68 to R74). -/
def Mode.resolverCharge (s : State) (m : Mode) (always : Bool) (o : Operand) : Nat :=
  match m, o with
  | .zpx, .d8 _ => 1
  | .zpy, .d8 _ => 1
  | .abx, .word w => if always then 1 else crossingExtra w s.x
  | .aby, .word w => if always then 1 else crossingExtra w s.y
  | .izx, .d8 _ => 3
  | .izy, .d8 d => 2 + if always then 1 else crossingExtra (s.peekWord (Byte.zext d)) s.y
  | _, _ => 0

/-- The effect of an instruction on a state: closed forms of the two generic bodies (R93, R94) and the two control transfers; `none`
where it has no complete body. -/
def Coded.effect (cfg : Config) (s : State) (c : Coded) : Option Effect :=
  match c.desc.kind, c.desc.mode, c.operand with
  | .load r, .imm, .d8 d => some (.load r d 0)
  | .load r, m, o => (m.effectiveAddr s o).map fun ea => .load r (s.peek ea) (m.resolverCharge s c.desc.always o + 1)
  | .store r, m, o => (m.effectiveAddr s o).map fun ea => .store r ea (m.resolverCharge s c.desc.always o + 1)
  | .call, _, .word w => some (.call cfg w)
  | .call, _, _ => none
  | .ret, _, _ => some (.ret cfg)

end Sys2Proof

namespace Sys2Proof.Machine

theorem loadValue_uncharged (s : State) (r : Reg) (v : Byte) : loadValue r v s = s.loaded r v 0 := by
  simpa using loadValue_charge s r v 0

/-- The resolver of a mode in closed form: the address, and the state it charged. -/
theorem addr_eq (m : Mode) (always : Bool) (o : Operand) (s : State) :
    addr m always o s = (m.effectiveAddr s o).map fun ea => (ea, s.charge (m.resolverCharge s always o)) := by
  cases m <;> cases o <;> cases always <;>
    simp only [addr, Mode.effectiveAddr, Mode.resolverCharge, crossingExtra, addrZp_eq, addrAbs_eq, addrZpi_eq, addrAbi_eq, addrIzx_eq,
      addrIzy_eq, Option.map_some, Option.map_none, Bool.true_or, Bool.false_or, if_true, Bool.false_eq_true, if_false]

/-- An instruction's body answers the next state its effect leaves, or is refused where it has no complete body. -/
theorem execWith_eq (cfg : Config) (c : Coded) (s : State) :
    execWith cfg c s = match c.effect cfg s with
      | some e => .next (e.apply s)
      | none => .refused .incompleteBody := by
  obtain ⟨⟨m, k, al⟩, o⟩ := c
  cases k with
  | load r =>
    cases m <;> cases o <;>
      simp only [execWith, loadBody, Coded.effect, addr_eq, Mode.effectiveAddr, Option.map_some, Option.map_none, loadFrom_eq,
        loadValue_uncharged, Effect.apply]
  | store r =>
    simp only [execWith, storeBody, Coded.effect, addr_eq]
    cases m.effectiveAddr s o <;> simp only [Option.map_some, Option.map_none, storeTo_eq, Effect.apply]
  | call => cases o <;> simp only [execWith, Coded.effect, execJsrWith_eq, Effect.apply]
  | ret => simp only [execWith, Coded.effect, execRtsWith_eq, Effect.apply]

/-- A well-formed instruction has an effect, whatever the state. -/
theorem Coded.effect_of_wf {c : Coded} (h : c.wf = true) (cfg : Config) (s : State) : ∃ e, c.effect cfg s = some e := by
  obtain ⟨⟨m, k, al⟩, o⟩ := c
  cases k <;> cases m <;> cases o <;> first | exact ⟨_, rfl⟩ | exact nomatch h

/-- A well-formed instruction's body answers a next state. -/
theorem execWith_of_wf {c : Coded} (h : c.wf = true) (cfg : Config) (s : State) :
    ∃ e, c.effect cfg s = some e ∧ execWith cfg c s = .next (e.apply s) := by
  obtain ⟨e, he⟩ := Coded.effect_of_wf h cfg s
  exact ⟨e, he, by rw [execWith_eq, he]⟩

/-- A body that answers a next state has an effect, which leaves that state. -/
theorem execWith_next {cfg : Config} {c : Coded} {s t : State} (h : execWith cfg c s = .next t) :
    ∃ e, c.effect cfg s = some e ∧ t = e.apply s := by
  rw [execWith_eq] at h
  split at h
  · next e he => exact ⟨e, he, (Host.Outcome.next.inj h).symm⟩
  · cases h

/-- `exec` is the body of the row's descriptor and operand with the default parameters. -/
theorem exec_eq_execWith (i : Instr) (s : State) : exec i s = execWith Config.default i.coded s := by cases i <;> rfl

/-- Every row's body answers a next state with the default parameters. -/
theorem exec_eq (i : Instr) (s : State) : ∃ e, i.coded.effect Config.default s = some e ∧ exec i s = .next (e.apply s) := by
  rw [exec_eq_execWith]
  exact execWith_of_wf i.coded_wf.1 _ s

/-- What the default map selects runs as the general body does. -/
theorem execDefault_eq (c : Coded) (s : State) : execDefault c s = execWith Config.default c s := by
  unfold execDefault
  split
  · next i h => rw [exec_eq_execWith, Coded.instr?_eq_some h]
  · rfl

/-- `step` is the step with the default parameters. -/
theorem step_eq_stepWith (s : State) : step s = stepWith Config.default s := by
  unfold step stepWith
  cases fetchInstr Config.default s <;> simp only [execDefault_eq]

/-! ### What an effect leaves, field by field -/

variable (s : State) (e : Effect)

@[simp] theorem Effect.apply_flagC : (e.apply s).flagC = s.flagC := by cases e <;> simp only [Effect.apply, State.loaded_flagC,
  State.charge_flagC, State.poke_flagC, State.call_flagC, State.returned_flagC]
@[simp] theorem Effect.apply_flagI : (e.apply s).flagI = s.flagI := by cases e <;> simp only [Effect.apply, State.loaded_flagI,
  State.charge_flagI, State.poke_flagI, State.call_flagI, State.returned_flagI]
@[simp] theorem Effect.apply_flagD : (e.apply s).flagD = s.flagD := by cases e <;> simp only [Effect.apply, State.loaded_flagD,
  State.charge_flagD, State.poke_flagD, State.call_flagD, State.returned_flagD]
@[simp] theorem Effect.apply_flagB : (e.apply s).flagB = s.flagB := by cases e <;> simp only [Effect.apply, State.loaded_flagB,
  State.charge_flagB, State.poke_flagB, State.call_flagB, State.returned_flagB]
@[simp] theorem Effect.apply_flagV : (e.apply s).flagV = s.flagV := by cases e <;> simp only [Effect.apply, State.loaded_flagV,
  State.charge_flagV, State.poke_flagV, State.call_flagV, State.returned_flagV]
@[simp] theorem Effect.apply_diag : (e.apply s).diag = s.diag := by cases e <;> simp only [Effect.apply, State.loaded_diag,
  State.charge_diag, State.poke_diag, State.call_diag, State.returned_diag]

/-- An effect charges what `Effect.charges` says. -/
theorem Effect.apply_cyc : (e.apply s).cyc = s.cyc - e.charges := by
  cases e <;> simp only [Effect.apply, Effect.charges, State.loaded_cyc, State.charge_cyc, State.poke_cyc, State.call_cyc,
    State.returned_cyc, Nat.cast_ofNat]

/-- `Z` and `N` after an effect: kept, or those of the value loaded (R20, R88). -/
theorem Effect.apply_zn : ((e.apply s).flagZ = s.flagZ ∧ (e.apply s).flagN = s.flagN) ∨
    ∃ v : Byte, (e.apply s).flagZ = (v == 0#8) ∧ (e.apply s).flagN = v.msb := by
  cases e with
  | load r v n => exact .inr ⟨v, State.loaded_flagZ s r v n, State.loaded_flagN s r v n⟩
  | store r ea n => exact .inl ⟨by simp only [Effect.apply, State.charge_flagZ, State.poke_flagZ],
      by simp only [Effect.apply, State.charge_flagN, State.poke_flagN]⟩
  | call cfg w => exact .inl ⟨State.call_flagZ s cfg w 3, State.call_flagN s cfg w 3⟩
  | ret cfg => exact .inl ⟨State.returned_flagZ s cfg _, State.returned_flagN s cfg _⟩

/-- `SP` after an effect: kept, down by 2 or up by 2 (R17). -/
theorem Effect.apply_sp : (e.apply s).sp = s.sp ∨ (e.apply s).sp = s.sp - 2#8 ∨ (e.apply s).sp = s.sp + 2#8 := by
  cases e with
  | load r v n => exact .inl (State.loaded_sp s r v n)
  | store r ea n => exact .inl (by simp only [Effect.apply, State.charge_sp, State.poke_sp])
  | call cfg w => exact .inr (.inl (State.call_sp s cfg w 3))
  | ret cfg => exact .inr (.inr (State.returned_sp s cfg _))

/-- The memory after an effect is that of the state, or one or two writes over it; so the canonical form is kept. -/
theorem Effect.apply_memWf (h : s.mem.wf = true) : (e.apply s).mem.wf = true := by
  cases e <;> simp only [Effect.apply, State.loaded_mem, State.charge_mem, State.poke_mem, State.call_mem, State.returned_mem]
  · exact h
  · exact Memory.wf_write _ _ h
  · exact Memory.wf_write _ _ (Memory.wf_write _ _ h)
  · exact h

/-- The effect is of the kind the descriptor names (R56). -/
theorem Coded.effect_kind {cfg : Config} {c : Coded} {s : State} {e : Effect} (h : c.effect cfg s = some e) : e.kind = c.desc.kind := by
  obtain ⟨⟨m, k, al⟩, o⟩ := c
  cases k with
  | load r => cases m <;> cases o <;> cases h <;> rfl
  | store r =>
    obtain ⟨ea, -, rfl⟩ := Option.map_eq_some_iff.mp h
    rfl
  | call => cases o <;> cases h; rfl
  | ret => cases h; rfl

/-- What one step can do: report an unknown opcode, or run the body of the instruction whose bytes stand at `PC` (R82). -/
theorem stepWith_cases (cfg : Config) :
    (decodeOpcode cfg (s.peek s.pc) = none ∧ fetchInstr cfg s = .unknown (raiseUnknownOpcode (s.peek s.pc) s.pc (s.afterFetch 1)) ∧
      stepWith cfg s = .next (raiseUnknownOpcode (s.peek s.pc) s.pc (s.afterFetch 1))) ∨
    ∃ c rest e, decodeOpcode cfg (s.peek s.pc) = some c.desc ∧ decode cfg s.bytesAtPc = .ok (c, rest) ∧ c.wf = true ∧
      fetchInstr cfg s = .instr c (s.afterFetch c.length) ∧ c.effect cfg (s.afterFetch c.length) = some e ∧
      stepWith cfg s = .next (e.apply (s.afterFetch c.length)) := by
  cases h : decodeOpcode cfg (s.peek s.pc) with
  | none => exact .inl ⟨rfl, fetchInstr_unknown s h, by simp only [stepWith, fetchInstr_unknown s h]⟩
  | some d =>
    obtain ⟨rest, hd⟩ := decode_bytesAtPc s h
    obtain ⟨-, -, -, hw⟩ := decode_ok hd
    have hf := fetchInstr_known s h
    obtain ⟨e, he, hx⟩ := execWith_of_wf hw cfg (s.afterFetch d.mode.format.length)
    exact .inr ⟨⟨d, s.operandAtPc d.mode.format⟩, rest, e, rfl, hd, hw, hf, he, by simp only [stepWith, hf]; exact hx⟩

end Sys2Proof.Machine
end

