-- ==== Sys2Proof/Laws/PerInstr.lean ====
section
/-! SUPPORT. The per-instruction family `EncodingForm`: what the spec demands of each instruction as syntax. -/

namespace Sys2Proof.Laws.EncodingForm

/-- With the default map the encoding is an opcode byte that selects the instruction's descriptor, followed by its operand bytes
(R51, R55); its length is the one its mode's format gives (R50, R52); the descriptor is well formed (R56, R70, R96); and the
instruction is read back from its descriptor and operand. -/
def Statement (i : Instr) : Prop :=
  ∃ op, encodeInstr i = some (op :: i.operand.bytes) ∧ decodeOpcode Config.default op = some i.descriptor ∧
    (op :: i.operand.bytes).length = i.length ∧ i.wf = true ∧ i.coded.instr? = some i

theorem ldaImm (d : Byte) : Statement (.ldaImm d) := ⟨_, rfl, rfl, rfl, rfl, rfl⟩
theorem ldaZp (d : Byte) : Statement (.ldaZp d) := ⟨_, rfl, rfl, rfl, rfl, rfl⟩
theorem ldaZpx (d : Byte) : Statement (.ldaZpx d) := ⟨_, rfl, rfl, rfl, rfl, rfl⟩
theorem ldaAbs (w : Word) : Statement (.ldaAbs w) := ⟨_, rfl, rfl, rfl, rfl, rfl⟩
theorem ldaAbx (w : Word) : Statement (.ldaAbx w) := ⟨_, rfl, rfl, rfl, rfl, rfl⟩
theorem ldaAby (w : Word) : Statement (.ldaAby w) := ⟨_, rfl, rfl, rfl, rfl, rfl⟩
theorem ldaIzx (d : Byte) : Statement (.ldaIzx d) := ⟨_, rfl, rfl, rfl, rfl, rfl⟩
theorem ldaIzy (d : Byte) : Statement (.ldaIzy d) := ⟨_, rfl, rfl, rfl, rfl, rfl⟩
theorem ldxImm (d : Byte) : Statement (.ldxImm d) := ⟨_, rfl, rfl, rfl, rfl, rfl⟩
theorem ldxZp (d : Byte) : Statement (.ldxZp d) := ⟨_, rfl, rfl, rfl, rfl, rfl⟩
theorem ldxZpy (d : Byte) : Statement (.ldxZpy d) := ⟨_, rfl, rfl, rfl, rfl, rfl⟩
theorem ldxAbs (w : Word) : Statement (.ldxAbs w) := ⟨_, rfl, rfl, rfl, rfl, rfl⟩
theorem ldxAby (w : Word) : Statement (.ldxAby w) := ⟨_, rfl, rfl, rfl, rfl, rfl⟩
theorem ldyImm (d : Byte) : Statement (.ldyImm d) := ⟨_, rfl, rfl, rfl, rfl, rfl⟩
theorem ldyZp (d : Byte) : Statement (.ldyZp d) := ⟨_, rfl, rfl, rfl, rfl, rfl⟩
theorem ldyZpx (d : Byte) : Statement (.ldyZpx d) := ⟨_, rfl, rfl, rfl, rfl, rfl⟩
theorem ldyAbs (w : Word) : Statement (.ldyAbs w) := ⟨_, rfl, rfl, rfl, rfl, rfl⟩
theorem ldyAbx (w : Word) : Statement (.ldyAbx w) := ⟨_, rfl, rfl, rfl, rfl, rfl⟩
theorem staZp (d : Byte) : Statement (.staZp d) := ⟨_, rfl, rfl, rfl, rfl, rfl⟩
theorem staZpx (d : Byte) : Statement (.staZpx d) := ⟨_, rfl, rfl, rfl, rfl, rfl⟩
theorem staAbs (w : Word) : Statement (.staAbs w) := ⟨_, rfl, rfl, rfl, rfl, rfl⟩
theorem staAbx (w : Word) : Statement (.staAbx w) := ⟨_, rfl, rfl, rfl, rfl, rfl⟩
theorem staAby (w : Word) : Statement (.staAby w) := ⟨_, rfl, rfl, rfl, rfl, rfl⟩
theorem staIzx (d : Byte) : Statement (.staIzx d) := ⟨_, rfl, rfl, rfl, rfl, rfl⟩
theorem staIzy (d : Byte) : Statement (.staIzy d) := ⟨_, rfl, rfl, rfl, rfl, rfl⟩
theorem stxZp (d : Byte) : Statement (.stxZp d) := ⟨_, rfl, rfl, rfl, rfl, rfl⟩
theorem stxZpy (d : Byte) : Statement (.stxZpy d) := ⟨_, rfl, rfl, rfl, rfl, rfl⟩
theorem stxAbs (w : Word) : Statement (.stxAbs w) := ⟨_, rfl, rfl, rfl, rfl, rfl⟩
theorem styZp (d : Byte) : Statement (.styZp d) := ⟨_, rfl, rfl, rfl, rfl, rfl⟩
theorem styZpx (d : Byte) : Statement (.styZpx d) := ⟨_, rfl, rfl, rfl, rfl, rfl⟩
theorem styAbs (w : Word) : Statement (.styAbs w) := ⟨_, rfl, rfl, rfl, rfl, rfl⟩
theorem jsr (w : Word) : Statement (.jsr w) := ⟨_, rfl, rfl, rfl, rfl, rfl⟩
theorem rts : Statement (.rts) := ⟨_, rfl, rfl, rfl, rfl, rfl⟩

end Sys2Proof.Laws.EncodingForm
end

