-- ==== Sys2Proof/Tests/Slice0.lean ====
section
/-! SUPPORT. Tests of the model: ill-formed descriptors refused, words decoded, vectors of the spec one step each, and a witness for
the hypotheses of every statement. Expected results are those of spec/30_encoding.md R55 and R61 and of spec/95_test_vectors.md. -/

namespace Sys2Proof.Tests

open Sys2Proof.Machine

/-! ### Helpers -/

/-- `s` with `PC` at an address, an instruction's bytes there, and some cells set. -/
def load (s : State) (at_ : Word) (bytes : List Byte) (cells : List (Word × Byte)) : State :=
  (cells.foldl (fun (u : State) c => u.poke c.1 c.2) { s with pc := at_ }).pokeList at_ bytes

/-- The step from `s` answers a next state with a property. -/
def ran (s : State) (p : State → Bool) : Bool :=
  match step s with
  | .next t => p t
  | .fault _ => false
  | .refused _ => false

/-- The premise state of the vectors: as after `Reset`, some bytes at `0x0200`, `PC` there. -/
def at0200 (bytes : List Byte) : State := load State.reset 0x0200#16 bytes []

/-! ### Well-formedness: each check refuses an ill-formed descriptor -/

theorem test_wf_load_without_operand : Descriptor.modeFits ⟨.imp, .load .a, false⟩ = false := by decide
theorem test_wf_store_immediate : Descriptor.modeFits ⟨.imm, .store .a, false⟩ = false := by decide
theorem test_wf_store_without_operand : Descriptor.modeFits ⟨.imp, .store .y, false⟩ = false := by decide
theorem test_wf_call_zero_page : Descriptor.modeFits ⟨.zp, .call, false⟩ = false := by decide
theorem test_wf_return_with_operand : Descriptor.modeFits ⟨.abs, .ret, false⟩ = false := by decide
theorem test_wf_load_own_index : Descriptor.indexFits ⟨.zpx, .load .x, false⟩ = false := by decide
theorem test_wf_store_own_index : Descriptor.indexFits ⟨.aby, .store .y, true⟩ = false := by decide
theorem test_wf_unconditional_load : Descriptor.variantFits ⟨.abx, .load .a, true⟩ = false := by decide
theorem test_wf_conditional_store : Descriptor.variantFits ⟨.izy, .store .a, false⟩ = false := by decide
theorem test_wf_unconditional_zero_page_store : Descriptor.variantFits ⟨.zp, .store .a, true⟩ = false := by decide
theorem test_wf_no_body : Descriptor.complete ⟨.zp, .call, false⟩ = false ∧ Descriptor.complete ⟨.abs, .ret, false⟩ = false ∧
    Descriptor.complete ⟨.imm, .store .x, true⟩ = false ∧ Descriptor.complete ⟨.imp, .load .y, true⟩ = false := by decide
theorem test_wf_operand_of_another_format : Coded.wf ⟨⟨.zp, .load .a, false⟩, .word 0x0010#16⟩ = false := by decide
theorem test_wf_refuses_as_a_whole : Descriptor.wf ⟨.imm, .store .a, false⟩ = false ∧
    Descriptor.wf ⟨.zpx, .load .x, false⟩ = false ∧ Descriptor.wf ⟨.abx, .load .a, true⟩ = false := by decide

/-! ### Decoding: a word of every constructor, written out from spec/30_encoding.md R51 and R55 -/

theorem test_decode_lda :
    decodeInstr [0xA9#8, 0x12#8] = some (.ldaImm 0x12#8, []) ∧ decodeInstr [0xA5#8, 0x12#8] = some (.ldaZp 0x12#8, []) ∧
    decodeInstr [0xB5#8, 0x12#8] = some (.ldaZpx 0x12#8, []) ∧ decodeInstr [0xAD#8, 0x34#8, 0x12#8] = some (.ldaAbs 0x1234#16, []) ∧
    decodeInstr [0xBD#8, 0x34#8, 0x12#8] = some (.ldaAbx 0x1234#16, []) ∧
    decodeInstr [0xB9#8, 0x34#8, 0x12#8] = some (.ldaAby 0x1234#16, []) ∧
    decodeInstr [0xA1#8, 0x12#8] = some (.ldaIzx 0x12#8, []) ∧ decodeInstr [0xB1#8, 0x12#8] = some (.ldaIzy 0x12#8, []) := by
  and_intros <;> rfl

theorem test_decode_ldx :
    decodeInstr [0xA2#8, 0x12#8] = some (.ldxImm 0x12#8, []) ∧ decodeInstr [0xA6#8, 0x12#8] = some (.ldxZp 0x12#8, []) ∧
    decodeInstr [0xB6#8, 0x12#8] = some (.ldxZpy 0x12#8, []) ∧ decodeInstr [0xAE#8, 0x34#8, 0x12#8] = some (.ldxAbs 0x1234#16, []) ∧
    decodeInstr [0xBE#8, 0x34#8, 0x12#8] = some (.ldxAby 0x1234#16, []) := by
  and_intros <;> rfl

theorem test_decode_ldy :
    decodeInstr [0xA0#8, 0x12#8] = some (.ldyImm 0x12#8, []) ∧ decodeInstr [0xA4#8, 0x12#8] = some (.ldyZp 0x12#8, []) ∧
    decodeInstr [0xB4#8, 0x12#8] = some (.ldyZpx 0x12#8, []) ∧ decodeInstr [0xAC#8, 0x34#8, 0x12#8] = some (.ldyAbs 0x1234#16, []) ∧
    decodeInstr [0xBC#8, 0x34#8, 0x12#8] = some (.ldyAbx 0x1234#16, []) := by
  and_intros <;> rfl

theorem test_decode_sta :
    decodeInstr [0x85#8, 0x12#8] = some (.staZp 0x12#8, []) ∧ decodeInstr [0x95#8, 0x12#8] = some (.staZpx 0x12#8, []) ∧
    decodeInstr [0x8D#8, 0x34#8, 0x12#8] = some (.staAbs 0x1234#16, []) ∧
    decodeInstr [0x9D#8, 0x34#8, 0x12#8] = some (.staAbx 0x1234#16, []) ∧
    decodeInstr [0x99#8, 0x34#8, 0x12#8] = some (.staAby 0x1234#16, []) ∧
    decodeInstr [0x81#8, 0x12#8] = some (.staIzx 0x12#8, []) ∧ decodeInstr [0x91#8, 0x12#8] = some (.staIzy 0x12#8, []) := by
  and_intros <;> rfl

theorem test_decode_stx :
    decodeInstr [0x86#8, 0x12#8] = some (.stxZp 0x12#8, []) ∧ decodeInstr [0x96#8, 0x12#8] = some (.stxZpy 0x12#8, []) ∧
    decodeInstr [0x8E#8, 0x34#8, 0x12#8] = some (.stxAbs 0x1234#16, []) := by
  and_intros <;> rfl

theorem test_decode_sty :
    decodeInstr [0x84#8, 0x12#8] = some (.styZp 0x12#8, []) ∧ decodeInstr [0x94#8, 0x12#8] = some (.styZpx 0x12#8, []) ∧
    decodeInstr [0x8C#8, 0x34#8, 0x12#8] = some (.styAbs 0x1234#16, []) := by
  and_intros <;> rfl

theorem test_decode_call_and_return :
    decodeInstr [0x20#8, 0x34#8, 0x12#8] = some (.jsr 0x1234#16, []) ∧ decodeInstr [0x60#8, 0x34#8] = some (.rts, [0x34#8]) := by
  and_intros <;> rfl

/-- Rejections by name: an unknown opcode (R58), a list that ends inside an instruction, and no byte at all. -/
theorem test_decode_rejects :
    decode Config.default [0x02#8, 0x12#8] = .error (.unknownOpcode 0x02#8) ∧ decode Config.default [0xA9#8] = .error (.missingOperand 0xA9#8) ∧
    decode Config.default [0xAD#8, 0x34#8] = .error (.missingOperand 0xAD#8) ∧ decode Config.default [0x20#8] = .error (.missingOperand 0x20#8) ∧
    decode Config.default [] = .error .noBytes := by
  and_intros <;> rfl

/-- The opcode byte is bits 7..0, the first operand byte bits 15..8, the second bits 23..16; bits above `nbits` are 0. -/
theorem test_table_word :
    decodeTableWord 24 0x1234BD = some (.ldaAbx 0x1234#16) ∧ decodeTableWord 16 0x12A9 = some (.ldaImm 0x12#8) ∧
    decodeTableWord 8 0x60 = some .rts ∧ decodeTableWord 8 0x12A9 = some (.ldaImm 0x00#8) ∧ decodeTableWord 8 0x02 = none := by
  decide

/-- The word placed where `step` fetches runs as the first instruction after reset. -/
theorem test_fetch_word : ran (State.reset.withFetchWord 16 0x80A9)
    (fun t => t.a == 0x80#8 && t.flagN && t.pc == 0xFFFE#16) = true := by decide

/-! ### Loads: vectors of spec/95_test_vectors.md section 2.1 -/

/-- Vector LD-01: `LDA #$00`. -/
theorem test_ld01 : ran (load { State.reset with a := 0x55#8 } 0x0200#16 [0xA9#8, 0x00#8] [])
    (fun t => t.a == 0x00#8 && t.flagZ && !t.flagN && t.cyc == -2 && t.pc == 0x0202#16) = true := by decide

/-- Vector LD-36: `LDA #$42`. -/
theorem test_ld36 : ran (load State.reset 0xFFFF#16 [0xA9#8, 0x42#8] [])
    (fun t => t.a == 0x42#8 && !t.flagZ && !t.flagN && t.cyc == -2 && t.pc == 0x0001#16) = true := by decide

/-- Vector LD-05: `LDA $10`. -/
theorem test_ld05 : ran (load State.reset 0x0200#16 [0xA5#8, 0x10#8] [(0x0010#16, 0x37#8)])
    (fun t => t.a == 0x37#8 && !t.flagZ && !t.flagN && t.cyc == -3 && t.pc == 0x0202#16) = true := by decide

/-- Vector LD-06: `LDA $F0,X`. -/
theorem test_ld06 : ran (load { State.reset with x := 0x0F#8 } 0x0200#16 [0xB5#8, 0xF0#8] [(0x00FF#16, 0x91#8)])
    (fun t => t.a == 0x91#8 && !t.flagZ && t.flagN && t.cyc == -4 && t.pc == 0x0202#16) = true := by decide

/-- Vector LD-07: `LDA $FF,X`. -/
theorem test_ld07 : ran (load { State.reset with x := 0x02#8 } 0x0200#16 [0xB5#8, 0xFF#8] [(0x0001#16, 0x5A#8), (0x0101#16, 0xEE#8)])
    (fun t => t.a == 0x5A#8 && !t.flagZ && !t.flagN && t.cyc == -4 && t.pc == 0x0202#16) = true := by decide

/-- Vector LD-08: `LDA $1234`. -/
theorem test_ld08 : ran (load { State.reset with a := 0x01#8 } 0x0200#16 [0xAD#8, 0x34#8, 0x12#8] [(0x1234#16, 0x00#8)])
    (fun t => t.a == 0x00#8 && t.flagZ && !t.flagN && t.cyc == -4 && t.pc == 0x0203#16) = true := by decide

/-- Vector LD-35: `LDA $0200`. -/
theorem test_ld35 : ran (load State.reset 0x0200#16 [0xAD#8, 0x00#8, 0x02#8] [])
    (fun t => t.a == 0xAD#8 && !t.flagZ && t.flagN && t.cyc == -4 && t.pc == 0x0203#16) = true := by decide

/-- Vector LD-09: `LDA $1200,X`. -/
theorem test_ld09 : ran (load { State.reset with x := 0xFF#8 } 0x0200#16 [0xBD#8, 0x00#8, 0x12#8] [(0x12FF#16, 0x44#8)])
    (fun t => t.a == 0x44#8 && !t.flagZ && !t.flagN && t.cyc == -4 && t.pc == 0x0203#16) = true := by decide

/-- Vector LD-11: `LDA $FFFF,X`. -/
theorem test_ld11 : ran (load { State.reset with x := 0x01#8 } 0x0200#16 [0xBD#8, 0xFF#8, 0xFF#8] [(0x0000#16, 0xC3#8)])
    (fun t => t.a == 0xC3#8 && !t.flagZ && t.flagN && t.cyc == -5 && t.pc == 0x0203#16) = true := by decide

/-- Vector LD-13: `LDA $20F0,Y`. -/
theorem test_ld13 : ran (load { State.reset with y := 0x0F#8 } 0x0200#16 [0xB9#8, 0xF0#8, 0x20#8] [(0x20FF#16, 0x80#8)])
    (fun t => t.a == 0x80#8 && !t.flagZ && t.flagN && t.cyc == -4 && t.pc == 0x0203#16) = true := by decide

/-- Vector LD-14: `LDA $20F0,Y`. -/
theorem test_ld14 : ran (load { State.reset with y := 0x10#8 } 0x0200#16 [0xB9#8, 0xF0#8, 0x20#8] [(0x2100#16, 0x7F#8)])
    (fun t => t.a == 0x7F#8 && !t.flagZ && !t.flagN && t.cyc == -5 && t.pc == 0x0203#16) = true := by decide

/-- Vector LD-16: `LDA ($FE,X)`. -/
theorem test_ld16 : ran (load { State.reset with x := 0x03#8 } 0x0200#16 [0xA1#8, 0xFE#8] [(0x0001#16, 0x00#8), (0x0002#16, 0x30#8), (0x0101#16, 0xEE#8), (0x3000#16, 0x11#8)])
    (fun t => t.a == 0x11#8 && !t.flagZ && !t.flagN && t.cyc == -6 && t.pc == 0x0202#16) = true := by decide

/-- Vector LD-17: `LDA ($FF,X)`. -/
theorem test_ld17 : ran (load { State.reset with x := 0x00#8 } 0x0200#16 [0xA1#8, 0xFF#8] [(0x0000#16, 0x77#8), (0x00FF#16, 0x34#8), (0x0100#16, 0x12#8), (0x1234#16, 0x21#8), (0x7734#16, 0xEE#8)])
    (fun t => t.a == 0x21#8 && !t.flagZ && !t.flagN && t.cyc == -6 && t.pc == 0x0202#16) = true := by decide

/-- Vector LD-19: `LDA ($40),Y`. -/
theorem test_ld19 : ran (load { State.reset with y := 0x10#8 } 0x0200#16 [0xB1#8, 0x40#8] [(0x0040#16, 0xF8#8), (0x0041#16, 0x30#8), (0x3108#16, 0xE0#8)])
    (fun t => t.a == 0xE0#8 && !t.flagZ && t.flagN && t.cyc == -6 && t.pc == 0x0202#16) = true := by decide

/-- Vector LD-20: `LDA ($FF),Y`. -/
theorem test_ld20 : ran (load { State.reset with y := 0x00#8 } 0x0200#16 [0xB1#8, 0xFF#8] [(0x00FF#16, 0x00#8), (0x0100#16, 0x40#8), (0x4000#16, 0x3C#8)])
    (fun t => t.a == 0x3C#8 && !t.flagZ && !t.flagN && t.cyc == -5 && t.pc == 0x0202#16) = true := by decide

/-- Vector LD-21: `LDX #$00`. -/
theorem test_ld21 : ran (load { State.reset with x := 0x09#8 } 0x0200#16 [0xA2#8, 0x00#8] [])
    (fun t => t.x == 0x00#8 && t.flagZ && !t.flagN && t.cyc == -2 && t.pc == 0x0202#16) = true := by decide

/-- Vector LD-22: `LDX #$F0`. -/
theorem test_ld22 : ran (load State.reset 0x0200#16 [0xA2#8, 0xF0#8] [])
    (fun t => t.x == 0xF0#8 && !t.flagZ && t.flagN && t.cyc == -2 && t.pc == 0x0202#16) = true := by decide

/-- Vector LD-23: `LDX $80`. -/
theorem test_ld23 : ran (load State.reset 0x0200#16 [0xA6#8, 0x80#8] [(0x0080#16, 0x01#8)])
    (fun t => t.x == 0x01#8 && !t.flagZ && !t.flagN && t.cyc == -3 && t.pc == 0x0202#16) = true := by decide

/-- Vector LD-24: `LDX $80,Y`. -/
theorem test_ld24 : ran (load { State.reset with y := 0x90#8 } 0x0200#16 [0xB6#8, 0x80#8] [(0x0010#16, 0xAB#8), (0x0110#16, 0xEE#8)])
    (fun t => t.x == 0xAB#8 && !t.flagZ && t.flagN && t.cyc == -4 && t.pc == 0x0202#16) = true := by decide

/-- Vector LD-25: `LDX $C000`. -/
theorem test_ld25 : ran (load State.reset 0x0200#16 [0xAE#8, 0x00#8, 0xC0#8] [(0xC000#16, 0x7F#8)])
    (fun t => t.x == 0x7F#8 && !t.flagZ && !t.flagN && t.cyc == -4 && t.pc == 0x0203#16) = true := by decide

/-- Vector LD-26: `LDX $C0FF,Y`. -/
theorem test_ld26 : ran (load { State.reset with y := 0x01#8 } 0x0200#16 [0xBE#8, 0xFF#8, 0xC0#8] [(0xC100#16, 0x80#8)])
    (fun t => t.x == 0x80#8 && !t.flagZ && t.flagN && t.cyc == -5 && t.pc == 0x0203#16) = true := by decide

/-- Vector LD-27: `LDX $C000,Y`. -/
theorem test_ld27 : ran (load { State.reset with y := 0x01#8 } 0x0200#16 [0xBE#8, 0x00#8, 0xC0#8] [(0xC001#16, 0x02#8)])
    (fun t => t.x == 0x02#8 && !t.flagZ && !t.flagN && t.cyc == -4 && t.pc == 0x0203#16) = true := by decide

/-- Vector LD-28: `LDY #$00`. -/
theorem test_ld28 : ran (load { State.reset with y := 0x09#8, a := 0x11#8, x := 0x22#8 } 0x0200#16 [0xA0#8, 0x00#8] [])
    (fun t => t.y == 0x00#8 && t.a == 0x11#8 && t.x == 0x22#8 && t.flagZ && !t.flagN && t.cyc == -2 && t.pc == 0x0202#16) = true := by decide

/-- Vector LD-29: `LDY #$81`. -/
theorem test_ld29 : ran (load State.reset 0x0200#16 [0xA0#8, 0x81#8] [])
    (fun t => t.y == 0x81#8 && !t.flagZ && t.flagN && t.cyc == -2 && t.pc == 0x0202#16) = true := by decide

/-- Vector LD-30: `LDY $33`. -/
theorem test_ld30 : ran (load State.reset 0x0200#16 [0xA4#8, 0x33#8] [(0x0033#16, 0x44#8)])
    (fun t => t.y == 0x44#8 && !t.flagZ && !t.flagN && t.cyc == -3 && t.pc == 0x0202#16) = true := by decide

/-- Vector LD-31: `LDY $33,X`. -/
theorem test_ld31 : ran (load { State.reset with x := 0xCD#8 } 0x0200#16 [0xB4#8, 0x33#8] [(0x0000#16, 0x99#8), (0x0100#16, 0xEE#8)])
    (fun t => t.y == 0x99#8 && !t.flagZ && t.flagN && t.cyc == -4 && t.pc == 0x0202#16) = true := by decide

/-- Vector LD-32: `LDY $4000`. -/
theorem test_ld32 : ran (load State.reset 0x0200#16 [0xAC#8, 0x00#8, 0x40#8] [(0x4000#16, 0xFF#8)])
    (fun t => t.y == 0xFF#8 && !t.flagZ && t.flagN && t.cyc == -4 && t.pc == 0x0203#16) = true := by decide

/-- Vector LD-33: `LDY $40FE,X`. -/
theorem test_ld33 : ran (load { State.reset with x := 0x01#8 } 0x0200#16 [0xBC#8, 0xFE#8, 0x40#8] [(0x40FF#16, 0x10#8)])
    (fun t => t.y == 0x10#8 && !t.flagZ && !t.flagN && t.cyc == -4 && t.pc == 0x0203#16) = true := by decide

/-- Vector LD-34: `LDY $40FE,X`. -/
theorem test_ld34 : ran (load { State.reset with x := 0x02#8 } 0x0200#16 [0xBC#8, 0xFE#8, 0x40#8] [(0x4100#16, 0x00#8)])
    (fun t => t.y == 0x00#8 && t.flagZ && !t.flagN && t.cyc == -5 && t.pc == 0x0203#16) = true := by decide

/-! ### Stores: vectors of spec/95_test_vectors.md section 2.2 -/

/-- Vector ST-02: `STA $10`. -/
theorem test_st02 : ran (load { State.reset with a := 0x00#8, flagZ := true } 0x0200#16 [0x85#8, 0x10#8] [(0x0010#16, 0xFF#8)])
    (fun t => t.peek 0x0010#16 == 0x00#8 && t.flagZ && !t.flagN && t.cyc == -3 && t.pc == 0x0202#16) = true := by decide

/-- Vector ST-03: `STA $10`. -/
theorem test_st03 : ran (load { State.reset with a := 0x80#8 } 0x0200#16 [0x85#8, 0x10#8] [(0x0010#16, 0x01#8)])
    (fun t => t.peek 0x0010#16 == 0x80#8 && !t.flagZ && !t.flagN && t.cyc == -3 && t.pc == 0x0202#16) = true := by decide

/-- Vector ST-04: `STA $F0,X`. -/
theorem test_st04 : ran (load { State.reset with a := 0x11#8, x := 0x20#8 } 0x0200#16 [0x95#8, 0xF0#8] [(0x0110#16, 0xEE#8)])
    (fun t => t.peek 0x0010#16 == 0x11#8 && t.peek 0x0110#16 == 0xEE#8 && !t.flagZ && !t.flagN && t.cyc == -4 && t.pc == 0x0202#16) = true := by decide

/-- Vector ST-05: `STA $1234`. -/
theorem test_st05 : ran (load { State.reset with a := 0xAB#8, flagN := true } 0x0200#16 [0x8D#8, 0x34#8, 0x12#8] [])
    (fun t => t.peek 0x1234#16 == 0xAB#8 && !t.flagZ && t.flagN && t.cyc == -4 && t.pc == 0x0203#16) = true := by decide

/-- Vector ST-21: `STA $0202`. -/
theorem test_st21 : ran (load { State.reset with a := 0xA9#8 } 0x0200#16 [0x8D#8, 0x02#8, 0x02#8] [])
    (fun t => t.peek 0x0202#16 == 0xA9#8 && !t.flagZ && !t.flagN && t.cyc == -4 && t.pc == 0x0203#16) = true := by decide

/-- Vector ST-06: `STA $1200,X`. -/
theorem test_st06 : ran (load { State.reset with a := 0x01#8, x := 0x05#8 } 0x0200#16 [0x9D#8, 0x00#8, 0x12#8] [])
    (fun t => t.peek 0x1205#16 == 0x01#8 && !t.flagZ && !t.flagN && t.cyc == -5 && t.pc == 0x0203#16) = true := by decide

/-- Vector ST-08: `STA $FFFF,X`. -/
theorem test_st08 : ran (load { State.reset with a := 0x03#8, x := 0x02#8 } 0x0200#16 [0x9D#8, 0xFF#8, 0xFF#8] [])
    (fun t => t.peek 0x0001#16 == 0x03#8 && !t.flagZ && !t.flagN && t.cyc == -5 && t.pc == 0x0203#16) = true := by decide

/-- Vector ST-09: `STA $3000,Y`. -/
theorem test_st09 : ran (load { State.reset with a := 0x04#8, y := 0xFF#8 } 0x0200#16 [0x99#8, 0x00#8, 0x30#8] [])
    (fun t => t.peek 0x30FF#16 == 0x04#8 && !t.flagZ && !t.flagN && t.cyc == -5 && t.pc == 0x0203#16) = true := by decide

/-- Vector ST-10: `STA $30FF,Y`. -/
theorem test_st10 : ran (load { State.reset with a := 0x05#8, y := 0xFF#8 } 0x0200#16 [0x99#8, 0xFF#8, 0x30#8] [])
    (fun t => t.peek 0x31FE#16 == 0x05#8 && !t.flagZ && !t.flagN && t.cyc == -5 && t.pc == 0x0203#16) = true := by decide

/-- Vector ST-11: `STA ($20,X)`. -/
theorem test_st11 : ran (load { State.reset with a := 0x06#8, x := 0x04#8 } 0x0200#16 [0x81#8, 0x20#8] [(0x0024#16, 0x78#8), (0x0025#16, 0x56#8)])
    (fun t => t.peek 0x5678#16 == 0x06#8 && !t.flagZ && !t.flagN && t.cyc == -6 && t.pc == 0x0202#16) = true := by decide

/-- Vector ST-12: `STA ($FF,X)`. -/
theorem test_st12 : ran (load { State.reset with a := 0x07#8, x := 0x00#8 } 0x0200#16 [0x81#8, 0xFF#8] [(0x0000#16, 0x77#8), (0x00FF#16, 0x34#8), (0x0100#16, 0x12#8)])
    (fun t => t.peek 0x1234#16 == 0x07#8 && !t.flagZ && !t.flagN && t.cyc == -6 && t.pc == 0x0202#16) = true := by decide

/-- Vector ST-13: `STA ($40),Y`. -/
theorem test_st13 : ran (load { State.reset with a := 0x08#8, y := 0x10#8 } 0x0200#16 [0x91#8, 0x40#8] [(0x0040#16, 0x00#8), (0x0041#16, 0x30#8)])
    (fun t => t.peek 0x3010#16 == 0x08#8 && !t.flagZ && !t.flagN && t.cyc == -6 && t.pc == 0x0202#16) = true := by decide

/-- Vector ST-14: `STA ($40),Y`. -/
theorem test_st14 : ran (load { State.reset with a := 0x09#8, y := 0x10#8 } 0x0200#16 [0x91#8, 0x40#8] [(0x0040#16, 0xF8#8), (0x0041#16, 0x30#8)])
    (fun t => t.peek 0x3108#16 == 0x09#8 && !t.flagZ && !t.flagN && t.cyc == -6 && t.pc == 0x0202#16) = true := by decide

/-- Vector ST-15: `STX $50`. -/
theorem test_st15 : ran (load { State.reset with x := 0xC1#8 } 0x0200#16 [0x86#8, 0x50#8] [])
    (fun t => t.peek 0x0050#16 == 0xC1#8 && !t.flagZ && !t.flagN && t.cyc == -3 && t.pc == 0x0202#16) = true := by decide

/-- Vector ST-16: `STX $F8,Y`. -/
theorem test_st16 : ran (load { State.reset with x := 0xC2#8, y := 0x10#8 } 0x0200#16 [0x96#8, 0xF8#8] [])
    (fun t => t.peek 0x0008#16 == 0xC2#8 && !t.flagZ && !t.flagN && t.cyc == -4 && t.pc == 0x0202#16) = true := by decide

/-- Vector ST-17: `STX $8000`. -/
theorem test_st17 : ran (load { State.reset with x := 0xC3#8 } 0x0200#16 [0x8E#8, 0x00#8, 0x80#8] [])
    (fun t => t.peek 0x8000#16 == 0xC3#8 && !t.flagZ && !t.flagN && t.cyc == -4 && t.pc == 0x0203#16) = true := by decide

/-- Vector ST-18: `STY $60`. -/
theorem test_st18 : ran (load { State.reset with y := 0xD1#8 } 0x0200#16 [0x84#8, 0x60#8] [])
    (fun t => t.peek 0x0060#16 == 0xD1#8 && !t.flagZ && !t.flagN && t.cyc == -3 && t.pc == 0x0202#16) = true := by decide

/-- Vector ST-19: `STY $F8,X`. -/
theorem test_st19 : ran (load { State.reset with y := 0xD2#8, x := 0x08#8 } 0x0200#16 [0x94#8, 0xF8#8] [])
    (fun t => t.peek 0x0000#16 == 0xD2#8 && !t.flagZ && !t.flagN && t.cyc == -4 && t.pc == 0x0202#16) = true := by decide

/-- Vector ST-20: `STY $8001`. -/
theorem test_st20 : ran (load { State.reset with y := 0xD3#8 } 0x0200#16 [0x8C#8, 0x01#8, 0x80#8] [])
    (fun t => t.peek 0x8001#16 == 0xD3#8 && !t.flagZ && !t.flagN && t.cyc == -4 && t.pc == 0x0203#16) = true := by decide

/-! ### Call and return: vectors of spec/95_test_vectors.md section 2.3 -/

/-- Vector CR-04: `JSR $0300`. -/
theorem test_cr04 : ran (load State.reset 0xFFFE#16 [0x20#8, 0x00#8, 0x03#8] [])
    (fun t => t.sp == 0xFD#8 && t.peek 0x01FE#16 == 0x00#8 && t.peek 0x01FF#16 == 0x00#8 && !t.flagZ && !t.flagN && t.cyc == -6 && t.pc == 0x0300#16) = true := by decide

/-- Vector CR-06: `JSR $0500`. -/
theorem test_cr06 : ran (load { State.reset with sp := 0x01#8 } 0x0200#16 [0x20#8, 0x00#8, 0x05#8] [])
    (fun t => t.sp == 0xFF#8 && t.peek 0x0100#16 == 0x02#8 && t.peek 0x0101#16 == 0x02#8 && !t.flagZ && !t.flagN && t.cyc == -6 && t.pc == 0x0500#16) = true := by decide

/-- Vector CR-09: `RTS`. -/
theorem test_cr09 : ran (load { State.reset with sp := 0xFD#8 } 0x0200#16 [0x60#8] [(0x01FE#16, 0xFF#8), (0x01FF#16, 0xFF#8)])
    (fun t => t.sp == 0xFF#8 && !t.flagZ && !t.flagN && t.cyc == -5 && t.pc == 0x0000#16) = true := by decide

/-- Vector CR-10: `RTS`. -/
theorem test_cr10 : ran (load { State.reset with sp := 0x7D#8, a := 0x12#8, x := 0x34#8, y := 0x56#8, flagZ := true, flagN := true } 0x0200#16 [0x60#8] [(0x017E#16, 0xFF#8), (0x017F#16, 0x2F#8)])
    (fun t => t.sp == 0x7F#8 && t.flagZ && t.flagN && t.cyc == -5 && t.pc == 0x3000#16) = true := by decide

/-! ### Unknown opcodes, `SetZN`, `PageCross`: sections 2.5, 2.7, 2.8 -/

/-- Vector UO-01: one report, one cycle, only `PC` moved. -/
theorem test_uo01 : step (load State.reset 0xFFFC#16 [0x02#8] []) =
    .next { load State.reset 0xFFFC#16 [0x02#8] [] with pc := 0xFFFD#16, cyc := -1, diag := [⟨0x02#8, 0xFFFC#16⟩] } := rfl

/-- Section 2.7, all boundary values. -/
theorem test_setZN : [0x00#8, 0x01#8, 0x7F#8, 0x80#8, 0x81#8, 0xFF#8].map
    (fun v => ((setZN v State.reset).flagZ, (setZN v State.reset).flagN)) =
    [(true, false), (false, false), (false, false), (false, true), (false, true), (false, true)] := by decide

/-- Section 2.8, all ten rows. -/
theorem test_pageCross : [(0x00FF#16, 0x01#8), (0x00FF#16, 0x00#8), (0x1200#16, 0xFF#8), (0x1201#16, 0xFF#8), (0x12FF#16, 0x01#8),
      (0xFFFF#16, 0x01#8), (0xFF00#16, 0xFF#8), (0x0000#16, 0x00#8), (0x3080#16, 0x80#8), (0x3080#16, 0x7F#8)].map
    (fun p : Word × Byte => pageCross p.1 (p.1 + Byte.zext p.2)) =
    [true, false, false, true, true, true, false, false, true, false] := by decide

/-! ### `Execute` and the host: sections 2.4 and 2.6 -/

/-- What an `Execute` returned and a property of the state it left. -/
def executed (budget : Int) (s : State) (n : Int) (p : State → Bool) : Bool :=
  match execute Config.default budget s with
  | .next r => r.cyclesConsumed == n && p r.state
  | .fault _ => false
  | .refused _ => false

/-- Vector EX-02: a negative budget runs nothing and returns 0. -/
theorem test_ex02 : executed (-3) (load State.reset 0xFFFC#16 [0xA9#8, 0x80#8] []) 0
    (fun t => t.a == 0x00#8 && t.pc == 0xFFFC#16) = true := by decide

/-- Vector EX-03: an over-run by 1. -/
theorem test_ex03 : executed 1 (load State.reset 0xFFFC#16 [0xA9#8, 0x80#8] []) 2
    (fun t => t.a == 0x80#8 && t.pc == 0xFFFE#16 && t.flagN) = true := by decide

/-- Vector EX-07: the largest over-run, 5. -/
theorem test_ex07 : executed 1 (load State.reset 0xFFFC#16 [0x20#8, 0x00#8, 0x03#8] []) 6
    (fun t => t.sp == 0xFD#8 && t.pc == 0x0300#16) = true := by decide

/-- Vector UO-06: a byte at the point where the budget is spent is not fetched and not reported. -/
theorem test_uo06 : executed 2 (load State.reset 0xFFFC#16 [0xA9#8, 0x00#8, 0x00#8] []) 2
    (fun t => t.flagZ && t.pc == 0xFFFE#16 && t.clean) = true := by decide

/-- Vector RS-05: an `Execute` before any `Reset` is refused. -/
theorem test_rs05 : hostStep Config.default (.execute 1) none = .refused .beforeReset := rfl

/-- Vector RS-04, its second `Reset`: the program is erased. -/
theorem test_rs04 : hostStep Config.default .reset (some (load State.reset 0xFFFC#16 [0xA9#8, 0x01#8] [])) = .next (some State.reset, .nothing) :=
  rfl

/-! ### The configuration: another machine's parameters (spec/00_scope.md R5) -/

/-- A machine whose map routes `STA abs,X` to the conditional variant. -/
def conditionalStores : Config := { Config.default with opcodeMap := [(0x9D#8, ⟨.abx, .store .a, false⟩)] }

/-- The store then costs 4 without a crossing and 5 with one; nothing but the count differs from the default (R70;
spec/93_implementation_defined.md U9). -/
theorem test_configured_variant :
    (match stepWith conditionalStores { at0200 [0x9D#8, 0x00#8, 0x12#8] with a := 0x42#8 } with
      | .next t => t.cyc == -4 && t.peek 0x1200#16 == 0x42#8 && t.pc == 0x0203#16
      | .fault _ => false
      | .refused _ => false) = true ∧
    (match stepWith conditionalStores { at0200 [0x9D#8, 0xFF#8, 0x12#8] with a := 0x42#8, x := 1#8 } with
      | .next t => t.cyc == -5 && t.peek 0x1300#16 == 0x42#8
      | .fault _ => false
      | .refused _ => false) = true := by decide

/-- A descriptor that is no row of the table, `LDX $hhll,X` by R93 with the index read before the register is written (R76), with the
unconditional variant; and one with no body, which is an unknown opcode (R153). -/
theorem test_configured_descriptor :
    (match stepWith { Config.default with opcodeMap := [(0xFF#8, ⟨.abx, .load .x, true⟩)] }
        (load { State.reset with x := 2#8 } 0x0200#16 [0xFF#8, 0x00#8, 0x12#8] [(0x1202#16, 0x80#8)]) with
      | .next t => t.x == 0x80#8 && t.flagN && t.cyc == -5 && t.pc == 0x0203#16
      | .fault _ => false
      | .refused _ => false) = true ∧
    stepCondition { Config.default with opcodeMap := [(0xFF#8, ⟨.imm, .store .x, true⟩)] } (at0200 [0xFF#8]) = some .unknownOpcode := by
  decide

/-- With an empty map every byte is an unknown opcode, and `Reset` loads the machine's own constants. -/
theorem test_configuration :
    (State.resetWith { Config.default with resetPc := 0x8000#16, spReset := 0xFD#8 }).pc = 0x8000#16 ∧
    (State.resetWith { Config.default with resetPc := 0x8000#16, spReset := 0xFD#8 }).sp = 0xFD#8 ∧
    stepCondition { Config.default with opcodeMap := [] } (at0200 [0xA9#8]) = some .unknownOpcode := by decide

/-- `STACK_BASE` moves the stack page (R140), and `RTS_TAIL_CYCLES` of 3 makes `RTS` cost 6 (D11). -/
theorem test_configured_call_and_return :
    (match stepWith { Config.default with stackBase := 0x0700#16 } (at0200 [0x20#8, 0x00#8, 0x04#8]) with
      | .next t => t.peek 0x07FE#16 == 0x02#8 && t.peek 0x07FF#16 == 0x02#8 && t.peek 0x01FE#16 == 0x00#8
      | .fault _ => false
      | .refused _ => false) = true ∧
    (match stepWith { Config.default with rtsTailCycles := 3 } (at0200 [0x60#8]) with
      | .next t => t.cyc == -6
      | .fault _ => false
      | .refused _ => false) = true := by decide

/-! ### Memory: the canonical form (spec/20_memory.md R32) -/

/-- Writing what an unlisted cell reads as removes the entry, and entries stand by rising address whatever the order of writes. -/
theorem test_memory_canonical : Memory.write [(5, 1#8)] 5#16 0#8 = [] ∧
    Memory.write (Memory.write [] 9#16 2#8) 5#16 1#8 = [(5, 1#8), (9, 2#8)] ∧
    Memory.write [(5, 1#8), (9, 2#8)] 5#16 3#8 = [(5, 3#8), (9, 2#8)] := by decide

/-- A list out of order, with a repeat, with an address outside the space or with a listed 0x00 is not in canonical form. -/
theorem test_memory_not_canonical : Memory.wf [(9, 2#8), (5, 1#8)] = false ∧ Memory.wf [(5, 1#8), (5, 2#8)] = false ∧
    Memory.wf [(65536, 1#8)] = false ∧ Memory.wf [(5, 0#8)] = false ∧ Memory.wf [(0, 1#8), (65535, 2#8)] = true := by decide

/-! ### Witnesses: for each statement of `Obligations` with hypotheses, concrete values that meet all of them -/

/-- A configuration that differs from the default in every field. Its map has descriptors of the table and two that are no row of it
(`STY abs,Y` with the conditional variant, `LDX abs,X` with the unconditional one), one without a body, and a byte with two entries. -/
def otherConfig : Config where
  resetPc := 0x8000#16
  spReset := 0xFE#8
  stackBase := 0x0700#16
  opcodeMap := [(0x01#8, ⟨.abs, .call, false⟩), (0x02#8, ⟨.imp, .ret, false⟩), (0x03#8, ⟨.imm, .load .a, false⟩),
    (0x04#8, ⟨.aby, .store .y, false⟩), (0x05#8, ⟨.abx, .load .x, true⟩), (0x06#8, ⟨.imm, .store .a, false⟩),
    (0x03#8, ⟨.zp, .load .y, false⟩)]
  rtsTailCycles := 3

/-- The clauses: well formed at the ends of the operands' ranges, and instructions another map encodes, one of them no row of the
table. -/
theorem witness_DecodeOfEncodeIsTheInstruction : (Instr.staIzy 0xFF#8).wf = true ∧ (Instr.jsr 0xFFFF#16).wf = true ∧
    encode otherConfig (Instr.jsr 0xFFFF#16).coded = some [0x01#8, 0xFF#8, 0xFF#8] ∧
    encode otherConfig ⟨⟨.abx, .load .x, true⟩, .word 0xFFFF#16⟩ = some [0x05#8, 0xFF#8, 0xFF#8] ∧
    decodeOpcode otherConfig 0x04#8 = some ⟨.aby, .store .y, false⟩ ∧
    Coded.wf ⟨⟨.aby, .store .y, false⟩, .word 0x0000#16⟩ = true := by decide

theorem witness_EncodeOfDecodeIsTheBytes :
    decodeInstr [0xBD#8, 0xFF#8, 0x00#8, 0x60#8] = some (.ldaAbx 0x00FF#16, [0x60#8]) ∧
    decode otherConfig [0x04#8, 0x00#8, 0xFF#8, 0x60#8] = .ok (⟨⟨.aby, .store .y, false⟩, .word 0xFF00#16⟩, [0x60#8]) := ⟨rfl, rfl⟩

theorem witness_OpcodeAloneGivesDescriptorAndLength :
    decode otherConfig (0x05#8 :: [0x00#8, 0x00#8]) = .ok (⟨⟨.abx, .load .x, true⟩, .word 0x0000#16⟩, []) ∧
    decode otherConfig (0x05#8 :: [0xFF#8, 0xFF#8, 0x60#8]) = .ok (⟨⟨.abx, .load .x, true⟩, .word 0xFFFF#16⟩, [0x60#8]) := ⟨rfl, rfl⟩

/-- A byte outside each map, and one whose descriptor has no complete body. -/
theorem witness_UnknownBytesAre223 : (decodeOpcode Config.default 0xEA#8).isNone = true ∧
    (decodeOpcode otherConfig 0xA9#8).isNone = true ∧ lookupOpcode 0x06#8 otherConfig.opcodeMap = some ⟨.imm, .store .a, false⟩ ∧
    (decodeOpcode otherConfig 0x06#8).isNone = true := by decide

/-- Both clauses with premises, the first across the wrap of `PC`. -/
theorem witness_StepRunsDecodedInstruction :
    decodeInstr (load State.reset 0xFFFF#16 [0xA9#8, 0x42#8] []).bytesAtPc = some (.ldaImm 0x42#8, [0x00#8]) ∧
    decode otherConfig (at0200 [0x05#8, 0x34#8, 0x12#8]).bytesAtPc = .ok (⟨⟨.abx, .load .x, true⟩, .word 0x1234#16⟩, []) ∧
    (Instr.ldaImm 0x42#8).wf = true := ⟨rfl, rfl, rfl⟩

theorem witness_UnknownOpcodeStep : (decodeOpcode Config.default ((at0200 [0x02#8]).peek (at0200 [0x02#8]).pc)).isNone = true := by decide

/-- Both cases: a step that raises nothing and one that raises `UnknownOpcode`. -/
theorem witness_StepRaisesAtMostUnknownOpcode :
    (∃ t, stepWith Config.default (at0200 [0x60#8]) = .next t ∧ stepCondition Config.default (at0200 [0x60#8]) = none) ∧
    ∃ t, stepWith Config.default (at0200 [0x02#8]) = .next t ∧ stepCondition Config.default (at0200 [0x02#8]) = some .unknownOpcode :=
  ⟨⟨_, rfl, by decide⟩, ⟨_, rfl, by decide⟩⟩

/-- Every clause: a row of the table at each bound of the cost, a descriptor of another map that always charges the extra cycle, and
an unknown opcode. -/
theorem witness_StepCostsTheTableTotal :
    (∃ t i rest, step (at0200 [0xA9#8]) = .next t ∧ decodeInstr (at0200 [0xA9#8]).bytesAtPc = some (i, rest) ∧
      i.cycleTotal (at0200 [0xA9#8]) = 2) ∧
    (∃ t i rest, step (at0200 [0x20#8]) = .next t ∧ decodeInstr (at0200 [0x20#8]).bytesAtPc = some (i, rest) ∧
      i.cycleTotal (at0200 [0x20#8]) = 6) ∧
    (∃ t c rest, stepWith otherConfig (at0200 [0x05#8]) = .next t ∧ decode otherConfig (at0200 [0x05#8]).bytesAtPc = .ok (c, rest) ∧
      c.cycleTotal otherConfig (at0200 [0x05#8]) = 5) ∧
    ∃ t, stepWith otherConfig (at0200 [0x06#8]) = .next t ∧ (decodeOpcode otherConfig ((at0200 [0x06#8]).peek 0x0200#16)).isNone = true :=
  ⟨⟨_, _, _, rfl, rfl, rfl⟩, ⟨_, _, _, rfl, rfl, rfl⟩, ⟨_, _, _, rfl, rfl, rfl⟩, ⟨_, rfl, by decide⟩⟩

/-- Both clauses, the first where `PC` wraps. -/
theorem witness_PcAdvancesByTheLength :
    (∃ t c rest, stepWith Config.default (load State.reset 0xFFFF#16 [0xA9#8] []) = .next t ∧
      decode Config.default (load State.reset 0xFFFF#16 [0xA9#8] []).bytesAtPc = .ok (c, rest) ∧
      c.desc.kind ≠ .call ∧ c.desc.kind ≠ .ret) ∧
    ∃ t, stepWith Config.default (at0200 [0x02#8]) = .next t ∧ (decodeOpcode Config.default ((at0200 [0x02#8]).peek 0x0200#16)).isNone = true :=
  ⟨⟨_, _, _, rfl, rfl, by decide, by decide⟩, ⟨_, rfl, by decide⟩⟩

theorem witness_CallResult : (Instr.jsr 0xFFFF#16).coded.desc.kind = .call ∧ (Instr.jsr 0xFFFF#16).coded.operand = .word 0xFFFF#16 :=
  ⟨rfl, rfl⟩

theorem witness_ReturnResult : Instr.rts.coded.desc.kind = .ret := rfl

/-- At both ends of the range of `SP`: the state after the call itself meets the conditions on the state before the return. -/
theorem witness_CallReturnRoundTrip :
    (∃ t, execWith Config.default (Instr.jsr 0x0300#16).coded { at0200 [] with sp := 2#8 } = .next t ∧ 2 ≤ (2#8 : Byte).toNat ∧ t.sp = 0#8) ∧
    ∃ t, execWith Config.default (Instr.jsr 0x0300#16).coded { at0200 [] with sp := 0xFF#8 } = .next t ∧ 2 ≤ (0xFF#8 : Byte).toNat ∧ t.sp = 0xFD#8 :=
  ⟨⟨_, rfl, by decide, rfl⟩, ⟨_, rfl, by decide, rfl⟩⟩

/-- Both values of `SP`, as in vectors CR-06 and CR-07. -/
theorem witness_ReturnReadsOtherCellsWhenSpWraps :
    (∃ t, execWith Config.default (Instr.jsr 0x0500#16).coded { at0200 [] with sp := 1#8 } = .next t ∧ (1#8 : Byte).toNat < 2 ∧ t.sp = 0xFF#8) ∧
    ∃ t, execWith Config.default (Instr.jsr 0x0500#16).coded { at0200 [] with sp := 0#8 } = .next t ∧ (0#8 : Byte).toNat < 2 ∧ t.sp = 0xFE#8 :=
  ⟨⟨_, rfl, by decide, rfl⟩, ⟨_, rfl, by decide, rfl⟩⟩

/-- A row of the table, and `LDX abs,X`, which is none. -/
theorem witness_LoadsFollowTheirDescriptor : (Instr.ldaAbx 0xFFFF#16).descriptor.kind = .load .a ∧
    (Instr.ldaAbx 0xFFFF#16).effectiveAddr { State.reset with x := 1#8 } = some 0x0000#16 ∧
    Coded.effectiveAddr { State.reset with x := 1#8 } ⟨⟨.abx, .load .x, true⟩, .word 0xFFFF#16⟩ = some 0x0000#16 := by decide

/-- A row of the table, and `STY abs,Y`, which is none. -/
theorem witness_StoresFollowTheirDescriptor : (Instr.staIzx 0xFF#8).descriptor.kind = .store .a ∧
    (Instr.staIzx 0xFF#8).effectiveAddr (load State.reset 0x0200#16 [] [(0x00FF#16, 0x34#8), (0x0100#16, 0x12#8)]) =
      some 0x1234#16 ∧
    Coded.effectiveAddr { State.reset with y := 1#8 } ⟨⟨.aby, .store .y, false⟩, .word 0xFFFF#16⟩ = some 0x0000#16 := by decide

/-- Every clause of the five whole-step statements: its opcode at `PC`, an operand byte 0xFF and an operand word 0x12FF after it. -/
def opcodeAtPc (op : Byte) : Bool :=
  let s := at0200 [op, 0xFF#8, 0x12#8]
  s.peek s.pc == op && s.peek (s.pc + 1#16) == 0xFF#8 && s.peekWord (s.pc + 1#16) == 0x12FF#16

theorem witness_StepLda : [0xA9#8, 0xA5#8, 0xB5#8, 0xAD#8, 0xBD#8, 0xB9#8, 0xA1#8, 0xB1#8].all opcodeAtPc = true := by decide
theorem witness_StepLdx : [0xA2#8, 0xA6#8, 0xB6#8, 0xAE#8, 0xBE#8].all opcodeAtPc = true := by decide
theorem witness_StepLdy : [0xA0#8, 0xA4#8, 0xB4#8, 0xAC#8, 0xBC#8].all opcodeAtPc = true := by decide
theorem witness_StepStores : [0x85#8, 0x95#8, 0x8D#8, 0x9D#8, 0x99#8, 0x81#8, 0x91#8, 0x86#8, 0x96#8, 0x8E#8, 0x84#8, 0x94#8,
    0x8C#8].all opcodeAtPc = true := by decide
theorem witness_StepCallAndReturn : [0x20#8, 0x60#8].all opcodeAtPc = true := by decide

/-- The invariant holds of a state whose next step is a call at the wrap of `SP`: with the default parameters, and with an even
`SP_RESET`. -/
theorem witness_StepKeepsTheInvariant :
    (∃ s t : State, s.Inv Config.default = true ∧ step s = .next t ∧ t.sp = 0xFF#8) ∧
    ∃ s t : State, s.Inv otherConfig = true ∧ stepWith otherConfig s = .next t ∧ t.sp = 0xFE#8 :=
  ⟨⟨{ at0200 [0x20#8, 0x00#8, 0x05#8] with sp := 1#8 }, _, by decide, rfl, rfl⟩,
    ⟨{ at0200 [0x01#8, 0x00#8, 0x05#8] with sp := 0#8 }, _, by decide, rfl, rfl⟩⟩

/-- A state with the invariant other than the one after `Reset`. -/
theorem witness_ResetMeetsTheInvariant : ({ State.reset with sp := 0x01#8, flagZ := true } : State).Inv Config.default = true := by
  decide

/-- A host write and an `Execute` that runs a step. -/
theorem witness_HostCommandsKeepTheInvariant : (at0200 [0xA9#8, 0x80#8]).Inv Config.default = true ∧
    (∃ t r, hostStep Config.default (.write 0xFFFF#16 0xFF#8) (some (at0200 [0xA9#8, 0x80#8])) = .next (some t, r)) ∧
    ∃ t r, hostStep Config.default (.execute 1) (some (at0200 [0xA9#8, 0x80#8])) = .next (some t, r) :=
  ⟨by decide, ⟨_, _, rfl⟩, ⟨_, _, rfl⟩⟩

/-- A step of each case: a load, and a store. -/
theorem witness_FlagsAreNeverRead : (∃ t, stepWith Config.default (at0200 [0xA9#8, 0x80#8]) = .next t ∧ t.flagN = true) ∧
    ∃ t, stepWith Config.default (at0200 [0x85#8, 0x10#8]) = .next t ∧ t.flagN = false :=
  ⟨⟨_, rfl, rfl⟩, ⟨_, rfl, rfl⟩⟩

/-- Both clauses: a load of `X` seen from `A`, and a store, which sets no flag. -/
theorem witness_OnlyLoadsWriteRegistersAndFlags :
    (∃ t, execWith Config.default (Instr.ldxImm 0x80#8).coded State.reset = .next t ∧ (Instr.ldxImm 0x80#8).coded.desc.kind ≠ .load .a) ∧
    ∃ t, execWith Config.default (Instr.staZp 0x80#8).coded State.reset = .next t ∧ (Instr.staZp 0x80#8).coded.desc.kind.setsZN = false :=
  ⟨⟨_, rfl, by decide⟩, ⟨_, rfl, by decide⟩⟩

/-- All three clauses. -/
theorem witness_OnlyCallAndReturnMoveSp :
    (∃ t, execWith Config.default (Instr.jsr 0x0300#16).coded State.reset = .next t ∧ (Instr.jsr 0x0300#16).coded.desc.kind = .call) ∧
    (∃ t, execWith Config.default Instr.rts.coded State.reset = .next t ∧ Instr.rts.coded.desc.kind = .ret) ∧
    ∃ t, execWith Config.default (Instr.ldaImm 0x00#8).coded State.reset = .next t ∧ (Instr.ldaImm 0x00#8).coded.desc.kind = .load .a :=
  ⟨⟨_, rfl, by decide⟩, ⟨_, rfl, by decide⟩, ⟨_, rfl, by decide⟩⟩

/-- A store and a call that change memory. -/
theorem witness_OnlyStoresAndCallsWriteMemory :
    (∃ t, stepWith Config.default { at0200 [0x85#8, 0x10#8] with a := 0x42#8 } = .next t ∧ t.mem ≠ (at0200 [0x85#8, 0x10#8]).mem) ∧
    ∃ t, stepWith Config.default (at0200 [0x20#8, 0x00#8, 0x04#8]) = .next t ∧ t.mem ≠ (at0200 [0x20#8, 0x00#8, 0x04#8]).mem :=
  ⟨⟨_, rfl, by decide⟩, ⟨_, rfl, by decide⟩⟩

/-- Both clauses: two canonical memories that read alike, and one to write to. -/
theorem witness_CanonicalMemoriesAreDetermined : ∃ m m' : Memory, m ≠ [] ∧ m.wf = true ∧ m'.wf = true ∧
    ∀ a, m.read a = m'.read a :=
  ⟨Memory.write (Memory.write [] 9#16 2#8) 5#16 1#8, [(5, 1#8), (9, 2#8)], by decide, by decide, by decide, fun _ => rfl⟩

theorem witness_BytePrimitives : (0x0000#16 : Word) ≠ 0xFFFF#16 := by decide

/-- Beside a word at the top of memory, whose high byte is at `0x0000`. -/
theorem witness_WordReadAfterWordWrite : (0x0001#16 : Word) ≠ 0xFFFF#16 ∧ (0x0001#16 : Word) ≠ 0xFFFF#16 + 1#16 := by decide

theorem witness_WordsAreLittleEndian : decodeOpcode otherConfig 0x05#8 = some ⟨.abx, .load .x, true⟩ ∧ Mode.abx.format = .f3 := ⟨rfl, rfl⟩

/-- A store to the byte at `PC`, here at the top of memory, and a call to each of the two cells it writes. -/
theorem witness_StoreIsSeenByTheNextFetch :
    (∃ t, (Instr.staAbs 0xFFFF#16).descriptor.kind = .store .a ∧
      (Instr.staAbs 0xFFFF#16).effectiveAddr { State.reset with pc := 0xFFFF#16, a := 0xA9#8 } = some 0xFFFF#16 ∧
      exec (.staAbs 0xFFFF#16) { State.reset with pc := 0xFFFF#16, a := 0xA9#8 } = .next t) ∧
    (∃ t, execWith otherConfig ⟨⟨.aby, .store .y, false⟩, .word 0x8000#16⟩ (State.resetWith otherConfig) = .next t ∧
      Coded.effectiveAddr (State.resetWith otherConfig) ⟨⟨.aby, .store .y, false⟩, .word 0x8000#16⟩ =
        some (State.resetWith otherConfig).pc) ∧
    (∃ t, execWith otherConfig (Instr.jsr (pushAddr otherConfig 0xFE#8)).coded (State.resetWith otherConfig) = .next t) ∧
    ∃ t, execWith Config.default (Instr.jsr (pushAddr Config.default 0xFF#8 + 1#16)).coded State.reset = .next t :=
  ⟨⟨_, rfl, rfl, rfl⟩, ⟨_, rfl, rfl⟩, ⟨_, rfl⟩, ⟨_, rfl⟩⟩

theorem witness_SetZnAsStated : (Instr.ldyImm 0x80#8).descriptor.kind = .load .y ∧
    (∃ t, exec (.ldyImm 0x80#8) State.reset = .next t ∧ t.flagN = true) ∧
    ∃ t, execWith otherConfig ⟨⟨.abx, .load .x, true⟩, .word 0x1234#16⟩ State.reset = .next t ∧ t.flagZ = true :=
  ⟨rfl, ⟨_, rfl, rfl⟩, ⟨_, rfl, rfl⟩⟩

/-- Both bounds are met: a budget spent exactly, and an over-run by 5; both values of the tail the bound allows for. -/
theorem witness_ExecuteConsumesTheBudgetAndAtMostFiveMore : (0 : Int) < 1 ∧ Config.default.rtsTailCycles ≤ 3 ∧
    otherConfig.rtsTailCycles ≤ 3 ∧ executed 2 (at0200 [0xA9#8, 0x80#8]) 2 (fun t => !t.running) = true ∧
    executed 1 (at0200 [0x20#8, 0x00#8, 0x03#8]) 6 (fun t => !t.running) = true := by decide

theorem witness_ExecuteOfNoBudgetDoesNothing : (0 : Int) ≤ 0 ∧ (-3 : Int) ≤ 0 ∧
    executed 0 (at0200 [0xA9#8, 0x80#8]) 0 (fun t => t.pc == 0x0200#16) = true := by decide

/-- The clauses under a premise: a run of one step, and a budget of at least 0. -/
theorem witness_ExecuteIsTheRunToTheFirstHalt : (0 : Int) ≤ 1 ∧ ∃ r, execute Config.default 1 (at0200 [0xA9#8, 0x80#8]) = .next r ∧
    r.state.pc = 0x0202#16 := ⟨by decide, _, rfl, rfl⟩

/-- The two calls of vector EX-06, with an over-run in the first. -/
theorem witness_ExecuteTwiceIsOnceWithTheSum : ∃ r q : Executed, (0 : Int) ≤ 1 ∧
    execute Config.default 1 (at0200 [0xA9#8, 0x80#8, 0xA2#8, 0x01#8]) = .next r ∧ execute Config.default 1 r.state = .next q ∧
    q.state.x = 0x01#8 ∧ r.cyclesConsumed = 2 := ⟨_, _, by decide, rfl, rfl, rfl, rfl⟩

theorem witness_ExecuteOneIsOneStep : ∃ t, stepWith Config.default { at0200 [0x60#8] with cyc := 1 } = .next t ∧ t.cyc = -4 := ⟨_, rfl, rfl⟩

theorem witness_StepDoesNotReadTheCycleCounter : ∃ t, stepWith Config.default (at0200 [0x60#8]) = .next t ∧ t.cyc = -5 := ⟨_, rfl, rfl⟩

theorem witness_CommandsBeforeResetAreRefused : HostCommand.write 0#16 0#8 ≠ .reset ∧ HostCommand.execute 1 ≠ .reset := by decide

end Sys2Proof.Tests
end

section
/-! The state after `Reset`: what its flags read as, and what the first fetch from it gives (spec/10_state.md R12, R16, R18, R22). -/

namespace Sys2Proof.Machine

/-- The byte a fetch gives is the one at `PC` before the fetch (R35). -/
@[simp] theorem fetchByte_fst (s : State) : (fetchByte s).1 = s.peek s.pc := congrArg Prod.fst (fetchByte_eq s)

@[simp] theorem State.resetWith_getFlag (cfg : Config) (f : Flag) : (State.resetWith cfg).getFlag f = false := by
  cases f <;> rfl

/-- Settles O35: the registers are literal fields of `State.resetWith`; the flags go by cases, and the memory is the empty list,
every address of which reads as 0x00. -/
theorem resetClearsRegistersFlagsMemory : Obligations.ResetClearsRegistersFlagsMemory := fun cfg =>
  ⟨rfl, rfl, rfl, State.resetWith_getFlag cfg, State.resetWith_peek cfg⟩

/-- Settles O36: `PC` is `RESET_PC` whatever the memory, so the first fetch reads the memory there. -/
theorem resetLoadsTheConstants : Obligations.ResetLoadsTheConstants := fun cfg =>
  ⟨rfl, rfl, fun m => fetchByte_fst { State.resetWith cfg with mem := m }⟩

end Sys2Proof.Machine
end

section
/-! The byte primitives and the host's raw memory operations: one store rule, `State.stored_poke`, serves both
(spec/20_memory.md R32, R35, R37, R39). -/

namespace Sys2Proof.Machine

section StoreAndReadRules

variable (s : State) (cfg : Config)

/-- `WriteByte` is a store that charges one cycle (R39). -/
theorem stored_writeByte (a : Word) (v : Byte) : s.Stored (writeByte a v s) a v 1 := s.stored_poke a v 1

/-- A raw write is a store that charges nothing (R32). -/
theorem State.stored_poke_free (a : Word) (v : Byte) : s.Stored (s.poke a v) a v 0 := by
  simpa only [State.charge_zero] using s.stored_poke a v 0

/-- The host's write is the raw write, with no reply (R32, R176). -/
theorem hostStep_write (a : Word) (v : Byte) :
    hostStep cfg (.write a v) (some s) = .next (some (s.poke a v), .nothing) := rfl

/-- The host's read answers the cell and leaves the state (R32, R177). -/
theorem hostStep_readCell (a : Word) : hostStep cfg (.readCell a) (some s) = .next (some s, .byte (s.peek a)) := rfl

end StoreAndReadRules

/-- Settles O46: the reads and the charge are their own equations, and the write is a store of one cycle. -/
theorem bytePrimitives : Obligations.BytePrimitives := by
  intro s a v n
  obtain ⟨hcell, hothers, hframe⟩ := stored_writeByte s a v
  exact ⟨fetchByte_eq s, readByte_eq s a, hcell, hothers, hframe, rfl⟩

/-- Settles O60: the host's write is a store of no cycle, its read is `peek`, and every cell reads 0x00 after `Reset`. -/
theorem hostWriteChangesOneCell : Obligations.HostWriteChangesOneCell := by
  intro cfg
  refine ⟨fun s a v => ⟨s.poke a v, hostStep_write s cfg a v, s.stored_poke_free a v⟩,
    fun s a => hostStep_readCell s cfg a, fun a => ?_⟩
  rw [hostStep_readCell, State.resetWith_peek]

end Sys2Proof.Machine
end

section
/-! `PageCross` as arithmetic: the high bytes of the two addresses as quotients by 256, and the carry out of the low byte of an
indexed sum (spec/40_addressing_modes.md R66). -/

namespace Sys2Proof.Machine

theorem Word.toNat_lo (w : Word) : (Word.lo w).toNat = w.toNat % 256 := BitVec.toNat_setWidth 8 w

theorem Byte.toNat_zext (d : Byte) : (Byte.zext d).toNat = d.toNat := BitVec.toNat_setWidth_of_le (by decide)

/-- The mask of the high byte shifts the low byte out and the high byte back in place. -/
theorem Word.toNat_and_highMask (w : Word) : (w &&& 0xFF00#16).toNat = w.toNat / 256 * 256 := by
  have hmask : w &&& 0xFF00#16 = w >>> 8 <<< 8 := (BitVec.shiftLeft_ushiftRight (x := w) (n := 8)).symm
  rw [hmask, BitVec.toNat_shiftLeft, BitVec.toNat_ushiftRight, Nat.shiftRight_eq_div_pow, Nat.shiftLeft_eq]
  omega

/-- `PageCross` compares the masked addresses (R66, the definition). -/
theorem pageCross_iff_and_ne (base result : Word) :
    pageCross base result = true ↔ result &&& 0xFF00#16 ≠ base &&& 0xFF00#16 := bne_iff_ne

/-- `PageCross` compares the numbers of the two 256-byte pages. -/
theorem pageCross_iff_page_ne (base result : Word) :
    pageCross base result = true ↔ result.toNat / 256 ≠ base.toNat / 256 := by
  rw [pageCross_iff_and_ne, ← BitVec.toNat_ne_iff_ne, Word.toNat_and_highMask, Word.toNat_and_highMask]
  omega

/-- An indexed sum is on another page exactly when the low bytes carry; a sum that wraps lands on page 0, and one byte of index
cannot bring it there from page 0. -/
theorem pageCross_indexed_iff (base : Word) (idx : Byte) :
    pageCross base (base + Byte.zext idx) = true ↔ 256 ≤ base.toNat % 256 + idx.toNat := by
  have hbase : base.toNat < 65536 := base.isLt
  have hidx : idx.toNat < 256 := idx.isLt
  rw [pageCross_iff_page_ne, BitVec.toNat_add, Byte.toNat_zext]
  omega

/-- The test the resolvers make (R72, R74) is the carry that the statements about cycles speak of. -/
theorem pageCross_indexed (base : Word) (idx : Byte) : pageCross base (base + Byte.zext idx) = leavesPage base idx := by
  rw [Bool.eq_iff_iff, pageCross_indexed_iff, leavesPage, decide_eq_true_iff]

theorem leavesPage_zero (base : Word) : leavesPage base 0#8 = false :=
  decide_eq_false (Nat.not_le.mpr (Nat.mod_lt base.toNat (by decide)))

/-- Settles O51: the mask comparison is the definition; of an indexed sum it is the carry of the low bytes, and index 0 gives
none. -/
theorem pageCrossIsLowByteCarry : Obligations.PageCrossIsLowByteCarry := by
  refine ⟨pageCross_iff_and_ne, fun base idx => ⟨?_, ?_⟩⟩
  · rw [Word.toNat_lo]
    exact pageCross_indexed_iff base idx
  · rw [pageCross_indexed, leavesPage_zero]

end Sys2Proof.Machine
end

section
/-! `SetZN` as arithmetic on the byte, and what a load leaves: the state of its one update, whose flags are already those of the
register it wrote (spec/41_execute_loop.md R88, R93). -/

namespace Sys2Proof.Machine

theorem setZN_flagZ_iff (v : Byte) (s : State) : (setZN v s).flagZ = true ↔ v = 0#8 := beq_iff_eq

theorem setZN_flagN_iff (v : Byte) (s : State) : (setZN v s).flagN = true ↔ 0x80 ≤ v.toNat := by
  rw [setZN_flagN, BitVec.msb_eq_decide, decide_eq_true_iff]

/-- The byte that sets `Z` is below the bytes that set `N`. -/
theorem setZN_not_flagZ_and_flagN (v : Byte) (s : State) : ¬ ((setZN v s).flagZ = true ∧ (setZN v s).flagN = true) := by
  rw [setZN_flagZ_iff, setZN_flagN_iff]
  rintro ⟨rfl, hN⟩
  exact absurd hN (by decide)

/-- The flags a load leaves are those of the register it wrote. -/
theorem setZN_loaded (s : State) (r : Reg) (v : Byte) (n : Nat) :
    setZN ((s.loaded r v n).getReg r) (s.loaded r v n) = s.loaded r v n := by
  cases r <;> rfl

/-- A load, of any map, that answers leaves the load's update of the state, with some value and some charge. -/
theorem execWith_load_next {cfg : Config} {c : Coded} {s t : State} {r : Reg} (hkind : c.desc.kind = .load r)
    (hnext : execWith cfg c s = .next t) : ∃ v n, t = s.loaded r v n := by
  obtain ⟨e, heffect, rfl⟩ := execWith_next hnext
  have he : e.kind = .load r := (Coded.effect_kind heffect).trans hkind
  cases e with
  | load q v n => cases he; exact ⟨v, n, rfl⟩
  | store | call | ret => cases he

/-- `SetZN` of the destination register changes nothing after a load of any map. -/
theorem setZN_execWith_load {cfg : Config} {c : Coded} {s t : State} {r : Reg} (hkind : c.desc.kind = .load r)
    (hnext : execWith cfg c s = .next t) : setZN (t.getReg r) t = t := by
  obtain ⟨v, n, rfl⟩ := execWith_load_next hkind hnext
  exact setZN_loaded s r v n

/-- Settles O50: `Z` and `N` are facts about the byte, and the frame is the definition; a load leaves `State.loaded`, on which
`SetZN` of its register changes nothing, and a row of the table is the load of its descriptor. -/
theorem setZnAsStated : Obligations.SetZnAsStated := by
  refine ⟨fun v s => ⟨setZN_flagZ_iff v s, setZN_flagN_iff v s, setZN_not_flagZ_and_flagN v s, rfl⟩, ?_,
    fun _ _ _ _ _ => setZN_execWith_load⟩
  intro i s t r hkind hnext
  rw [exec_eq_execWith] at hnext
  exact setZN_execWith_load hkind hnext

end Sys2Proof.Machine
end

section
/-! Encoding and decoding as inverses: the encoder picks a byte that selects the descriptor, so `decode_of_row` reads the instruction
back, and `decode_ok` says of what bytes an instruction was read (spec/30_encoding.md R50 to R58). -/

namespace Sys2Proof

/-- What the encoder writes: of a well-formed instruction, an opcode that selects its descriptor, then its operand (R51). -/
theorem encode_eq_some {cfg : Config} {c : Coded} {bytes : List Byte} (h : encode cfg c = some bytes) :
    ∃ op, bytes = op :: c.operand.bytes ∧ decodeOpcode cfg op = some c.desc ∧ c.wf = true := by
  obtain ⟨hwf, hmap⟩ := Option.ite_none_right_eq_some.mp h
  obtain ⟨op, hop, rfl⟩ := Option.map_eq_some_iff.mp hmap
  exact ⟨op, rfl, opcodeOf_spec hop, hwf⟩

/-- The opcode an encoding begins with is the one the map gives for the descriptor. -/
theorem encode_of_opcodeOf {cfg : Config} {c : Coded} {op : Byte} (hop : opcodeOf cfg c.desc = some op) (hwf : c.wf = true) :
    encode cfg c = some (op :: c.operand.bytes) := by
  rw [encode, if_pos hwf, hop, Option.map_some]

/-- A descriptor that some byte selects has an opcode: that byte's entry is one the search accepts. -/
theorem exists_opcodeOf {cfg : Config} {op : Byte} {d : Descriptor} (h : decodeOpcode cfg op = some d) :
    ∃ op', opcodeOf cfg d = some op' := by
  obtain ⟨-, hlookup⟩ := decodeOpcode_spec h
  have hfound : (cfg.opcodeMap.find? fun row => decide (decodeOpcode cfg row.1 = some d)).isSome := by
    rw [List.find?_isSome]
    exact ⟨(op, d), lookupOpcode_mem hlookup, decide_eq_true h⟩
  obtain ⟨row, hrow⟩ := Option.isSome_iff_exists.mp hfound
  exact ⟨row.1, Option.map_eq_some_iff.mpr ⟨row, hrow, rfl⟩⟩

theorem exists_encode {cfg : Config} {c : Coded} {op : Byte} (h : decodeOpcode cfg op = some c.desc) (hwf : c.wf = true) :
    ∃ bytes, encode cfg c = some bytes := by
  obtain ⟨op', hop⟩ := exists_opcodeOf h
  exact ⟨_, encode_of_opcodeOf hop hwf⟩

theorem decode_encode_append {cfg : Config} {c : Coded} {bytes : List Byte} (rest : List Byte) (h : encode cfg c = some bytes) :
    decode cfg (bytes ++ rest) = .ok (c, rest) := by
  obtain ⟨op, rfl, hop, hwf⟩ := encode_eq_some h
  exact decode_of_row hop hwf rest

/-- With the default map every row of the table has the encoding its row of R55 names. -/
theorem encodingForm_of_instr (i : Instr) : Laws.EncodingForm.Statement i := by
  open Laws.EncodingForm in
  cases i
  exacts [ldaImm _, ldaZp _, ldaZpx _, ldaAbs _, ldaAbx _, ldaAby _, ldaIzx _, ldaIzy _, ldxImm _, ldxZp _, ldxZpy _, ldxAbs _,
    ldxAby _, ldyImm _, ldyZp _, ldyZpx _, ldyAbs _, ldyAbx _, staZp _, staZpx _, staAbs _, staAbx _, staAby _, staIzx _, staIzy _,
    stxZp _, stxZpy _, stxAbs _, styZp _, styZpx _, styAbs _, jsr _, rts]

/-- Settles O2: an encoding is a selecting byte and the operand, which decode to the instruction; a row of the table is such an
instruction of the default map. -/
theorem decodeOfEncodeIsTheInstruction : Obligations.DecodeOfEncodeIsTheInstruction := by
  refine ⟨fun i rest _ => ?_, fun _ _ _ rest => decode_encode_append rest, fun _ _ _ => exists_encode⟩
  obtain ⟨op, hencode, -⟩ := encodingForm_of_instr i
  exact ⟨_, hencode, decodeInstr_iff.mpr (decode_encode_append rest hencode)⟩

/-- With the default map what decodes is the encoding of the instruction, followed by the rest. -/
theorem encode_decode_default {bytes rest : List Byte} {c : Coded} (h : decode Config.default bytes = .ok (c, rest)) :
    ∃ own, encode Config.default c = some own ∧ own ++ rest = bytes := by
  obtain ⟨op, rfl, hop, hwf⟩ := decode_ok h
  exact ⟨_, encode_of_opcodeOf (opcodeOf_decodeOpcode_default hop) hwf, rfl⟩

/-- Settles O3: `decode_ok` names the bytes of any map; in the default map the selecting byte is the encoder's. -/
theorem encodeOfDecodeIsTheBytes : Obligations.EncodeOfDecodeIsTheBytes := by
  refine ⟨fun bytes rest i h => ?_, fun _ _ _ _ => decode_ok⟩
  obtain ⟨own, hown, hbytes⟩ := encode_decode_default (decodeInstr_iff.mp h)
  exact ⟨own, hown, hbytes, i.coded_wf.2⟩

theorem Coded.operand_format {c : Coded} (h : c.wf = true) : c.operand.format = c.desc.mode.format :=
  beq_iff_eq.mp (Bool.and_eq_true_iff.mp h).2

/-- The bytes an instruction was read from are as many as its length (R52). -/
theorem length_of_decode_ok {cfg : Config} {bytes rest : List Byte} {c : Coded} (h : decode cfg bytes = .ok (c, rest)) :
    bytes.length = c.length + rest.length := by
  obtain ⟨op, rfl, -, hwf⟩ := decode_ok h
  rw [Coded.length, ← Coded.operand_format hwf, ← Operand.bytes_length, List.length_cons, List.length_append]
  omega

/-- The descriptor decoded is the one the first byte selects (R51). -/
theorem decodeOpcode_of_decode_ok {cfg : Config} {op : Byte} {bytes rest : List Byte} {c : Coded}
    (h : decode cfg (op :: bytes) = .ok (c, rest)) : decodeOpcode cfg op = some c.desc := by
  obtain ⟨op', hbytes, hop, -⟩ := decode_ok h
  rwa [(List.cons.inj hbytes).1]

/-- Settles O4: the first byte alone selects the descriptor, whose mode gives the length. -/
theorem opcodeAloneGivesDescriptorAndLength : Obligations.OpcodeAloneGivesDescriptorAndLength := by
  intro cfg op bytes bytes' rest rest' c c' h h'
  have hsame : some c.desc = some c'.desc := (decodeOpcode_of_decode_ok h).symm.trans (decodeOpcode_of_decode_ok h')
  exact ⟨Option.some.inj hsame, length_of_decode_ok h⟩

theorem decode_unknownOpcode {cfg : Config} {op : Byte} (h : decodeOpcode cfg op = none) (rest : List Byte) :
    decode cfg (op :: rest) = .error (.unknownOpcode op) := by
  rw [decode, h]

/-- A byte is outside the map where it has no entry, or one without a complete body (R58, R153; log 24). -/
theorem decodeOpcode_eq_none_iff {cfg : Config} {op : Byte} :
    decodeOpcode cfg op = none ↔ ∀ d, lookupOpcode op cfg.opcodeMap = some d → d.complete = false := by
  simp only [decodeOpcode, Option.filter_eq_none_iff, Bool.not_eq_true]

/-- Settles O5: 33 bytes of the 256 are in the default map, by counting; outside a map the decoder's first test rejects. -/
theorem unknownBytesAre223 : Obligations.UnknownBytesAre223 :=
  ⟨by decide +kernel, fun _ _ rest h => decode_unknownOpcode h rest, fun _ _ => decodeOpcode_eq_none_iff⟩

/-- Settles O1: each of the words is evaluated by the decoder. -/
theorem specWordsDecode : Obligations.SpecWordsDecode :=
  ⟨rfl, rfl, rfl, rfl, rfl, rfl, rfl, rfl, rfl, rfl⟩

end Sys2Proof
end

section
/-! One step, said once more in the form the invariants use: what it ran and what it left, with the body's effect read from the state
at the opcode, since a fetch changes neither memory nor an index register (spec/41_execute_loop.md R82). -/

namespace Sys2Proof.Machine

/-- An effect depends on the memory and the two index registers alone. -/
theorem Coded.effect_congr {s u : State} (hx : u.x = s.x) (hy : u.y = s.y) (hmem : u.mem = s.mem) (cfg : Config) (c : Coded) :
    c.effect cfg u = c.effect cfg s := by
  have hpeek : u.peek = s.peek := funext fun a => congrArg (Memory.read · a) hmem
  have hword : u.peekWord = s.peekWord := funext fun a => by simp only [State.peekWord, hpeek]
  unfold Coded.effect Mode.effectiveAddr Mode.resolverCharge
  simp only [hx, hy, hpeek, hword]

theorem Coded.effect_afterFetch (s : State) (n : Nat) (cfg : Config) (c : Coded) :
    c.effect cfg (s.afterFetch n) = c.effect cfg s := Coded.effect_congr rfl rfl rfl cfg c

/-- The instruction an opcode of a descriptor at `PC` makes with the operand that stands after it (R50, R53). -/
def State.codedAtPc (s : State) (d : Descriptor) : Coded := ⟨d, s.operandAtPc d.mode.format⟩

section StepEquations

variable {cfg : Config} {s t : State}

/-- The step at an unknown opcode is the fetch of one byte and the report (R151). -/
theorem stepWith_unknown (h : decodeOpcode cfg (s.peek s.pc) = none) :
    stepWith cfg s = .next (raiseUnknownOpcode (s.peek s.pc) s.pc (s.afterFetch 1)) := by
  rw [stepWith, fetchInstr_unknown s h]

/-- The step at a known opcode is the body of its descriptor and of the operand after it (R82). -/
theorem stepWith_known {d : Descriptor} (h : decodeOpcode cfg (s.peek s.pc) = some d) :
    stepWith cfg s = execWith cfg (s.codedAtPc d) (s.afterFetch (s.codedAtPc d).length) := by
  rw [stepWith, fetchInstr_known s h]
  rfl

/-- The descriptor of what decodes from the bytes at `PC` is the one the byte there selects, and its operand stands after it. -/
theorem decode_bytesAtPc_eq {c : Coded} {rest : List Byte} (h : decode cfg s.bytesAtPc = .ok (c, rest)) :
    decodeOpcode cfg (s.peek s.pc) = some c.desc ∧ c = s.codedAtPc c.desc := by
  have hop : decodeOpcode cfg (s.peek s.pc) = some c.desc := decodeOpcode_of_decode_ok h
  obtain ⟨rest', hfetched⟩ := decode_bytesAtPc s hop
  rw [h, Except.ok.injEq, Prod.mk.injEq] at hfetched
  exact ⟨hop, hfetched.1⟩

/-- When the bytes at `PC` decode, the step is the body of what they decode to, after the fetch of its bytes (R82). -/
theorem stepWith_of_decode {c : Coded} {rest : List Byte} (h : decode cfg s.bytesAtPc = .ok (c, rest)) :
    stepWith cfg s = execWith cfg c (s.afterFetch c.length) := by
  obtain ⟨hop, hc⟩ := decode_bytesAtPc_eq h
  rw [stepWith_known hop, ← hc]

/-- What a step that answers has done: reported an unknown opcode, or left the effect of the instruction at `PC`. -/
theorem stepWith_next (h : stepWith cfg s = .next t) :
    (decodeOpcode cfg (s.peek s.pc) = none ∧ t = raiseUnknownOpcode (s.peek s.pc) s.pc (s.afterFetch 1)) ∨
    ∃ c rest e, decode cfg s.bytesAtPc = .ok (c, rest) ∧ c.effect cfg s = some e ∧ t = e.apply (s.afterFetch c.length) := by
  obtain ⟨hop, -, hstep⟩ | ⟨c, rest, e, -, hdecode, -, -, heffect, hstep⟩ := stepWith_cases s cfg
  · exact .inl ⟨hop, Host.Outcome.next.inj (h.symm.trans hstep)⟩
  · rw [Coded.effect_afterFetch] at heffect
    exact .inr ⟨c, rest, e, hdecode, heffect, Host.Outcome.next.inj (h.symm.trans hstep)⟩

end StepEquations

/-- Settles O6: the step at decoded bytes is their body after the fetch; the rest are the model's own equations between the general
machine and the one with the defaults. -/
theorem stepRunsDecodedInstruction : Obligations.StepRunsDecodedInstruction := by
  refine ⟨fun s i rest h _ => ?_, fun cfg s c rest => stepWith_of_decode, fun _ _ _ => decodeInstr_iff, exec_eq_execWith,
    step_eq_stepWith, rfl, ?_⟩
  · rw [step_eq_stepWith, exec_eq_execWith, stepWith_of_decode (decodeInstr_iff.mp h)]
    rfl
  · rw [core, coreWith, funext step_eq_stepWith]
    rfl

/-- Settles O7: one byte fetched and the report, field by field. -/
theorem unknownOpcodeStep : Obligations.UnknownOpcodeStep := fun _ _ h => stepWith_unknown h

theorem exists_stepWith_next (cfg : Config) (s : State) : ∃ t, stepWith cfg s = .next t := by
  obtain ⟨-, -, hstep⟩ | ⟨c, rest, e, -, -, -, -, -, hstep⟩ := stepWith_cases s cfg
  · exact ⟨_, hstep⟩
  · exact ⟨_, hstep⟩

/-- Settles O9: each case of a step answers. -/
theorem stepAlwaysAnswersNext : Obligations.StepAlwaysAnswersNext :=
  ⟨fun s => step_eq_stepWith s ▸ exists_stepWith_next Config.default s, exists_stepWith_next⟩

theorem stepCondition_unknown {cfg : Config} {s : State} (h : decodeOpcode cfg (s.peek s.pc) = none) :
    stepCondition cfg s = some .unknownOpcode := by
  rw [stepCondition, fetchInstr_unknown s h]

theorem stepCondition_known {cfg : Config} {s : State} {d : Descriptor} (h : decodeOpcode cfg (s.peek s.pc) = some d) :
    stepCondition cfg s = none := by
  rw [stepCondition, fetchInstr_known s h]

/-- Settles O8: no effect touches `diag`, and the report of an unknown opcode is the one entry. -/
theorem stepRaisesAtMostUnknownOpcode : Obligations.StepRaisesAtMostUnknownOpcode := by
  intro cfg s t h
  obtain ⟨hop, rfl⟩ | ⟨c, rest, e, hdecode, -, rfl⟩ := stepWith_next h
  · exact .inr ⟨stepCondition_unknown hop, raiseUnknownOpcode_diag _ _ _⟩
  · exact .inl ⟨stepCondition_known (decode_bytesAtPc_eq hdecode).1, Effect.apply_diag _ e⟩

end Sys2Proof.Machine
end

section
/-! What each kind of effect leaves unchanged: registers and flags outside a load, `SP` and `PC` outside a call and a return, memory
outside a store and a call (spec/10_state.md R11, R14, R17, R20; spec/20_memory.md R31). -/

namespace Sys2Proof.Machine

section Frames

variable (s : State) (e : Effect)

theorem Effect.apply_getReg {r : Reg} (h : e.kind ≠ .load r) : (e.apply s).getReg r = s.getReg r := by
  cases e with
  | load q v n =>
    have hne : r ≠ q := fun hrq => h (hrq ▸ rfl)
    rw [Effect.apply, State.loaded_getReg, if_neg hne]
  | store q ea n => rw [Effect.apply, State.charge_getReg, State.poke_getReg]
  | call cfg w => exact State.call_getReg s cfg w 3 r
  | ret cfg => exact State.returned_getReg s cfg _ r

theorem Effect.apply_sameFlags (h : e.kind.setsZN = false) : s.SameFlags (e.apply s) := by
  cases e with
  | load r v n => cases h
  | store | call | ret => intro f; cases f <;> rfl

theorem Effect.apply_sp_of_call (h : e.kind = .call) : (e.apply s).sp = s.sp - 2#8 := by
  cases e with
  | load | store | ret => cases h
  | call cfg w => exact State.call_sp s cfg w 3

theorem Effect.apply_sp_of_ret (h : e.kind = .ret) : (e.apply s).sp = s.sp + 2#8 := by
  cases e with
  | load | store | call => cases h
  | ret cfg => exact State.returned_sp s cfg _

theorem Effect.apply_sp_pc (hcall : e.kind ≠ .call) (hret : e.kind ≠ .ret) : (e.apply s).sp = s.sp ∧ (e.apply s).pc = s.pc := by
  cases e with
  | load r v n => exact ⟨State.loaded_sp s r v n, State.loaded_pc s r v n⟩
  | store r ea n => exact ⟨rfl, rfl⟩
  | call => exact absurd rfl hcall
  | ret => exact absurd rfl hret

/-- An effect that changed the memory is a store or a call. -/
theorem Effect.kind_of_mem_ne (h : (e.apply s).mem ≠ s.mem) : (∃ r, e.kind = .store r) ∨ e.kind = .call := by
  cases e with
  | load r v n => exact absurd (State.loaded_mem s r v n) h
  | store r ea n => exact .inl ⟨r, rfl⟩
  | call cfg w => exact .inr rfl
  | ret cfg => exact absurd (State.returned_mem s cfg _) h

end Frames

/-- Settles O42: the effect of a body is of the descriptor's kind, and only a load's effect writes a register or a flag. -/
theorem onlyLoadsWriteRegistersAndFlags : Obligations.OnlyLoadsWriteRegistersAndFlags := by
  intro cfg c s t h
  obtain ⟨e, heffect, rfl⟩ := execWith_next h
  rw [← Coded.effect_kind heffect]
  exact ⟨fun r => e.apply_getReg s, e.apply_sameFlags s⟩

/-- Settles O43: the same, for `SP` and `PC`. -/
theorem onlyCallAndReturnMoveSp : Obligations.OnlyCallAndReturnMoveSp := by
  intro cfg c s t h
  obtain ⟨e, heffect, rfl⟩ := execWith_next h
  rw [← Coded.effect_kind heffect]
  exact ⟨e.apply_sp_of_call s, e.apply_sp_of_ret s, e.apply_sp_pc s⟩

/-- Settles O44: neither the fetch nor the report writes a cell, so a changed memory is the work of an effect. -/
theorem onlyStoresAndCallsWriteMemory : Obligations.OnlyStoresAndCallsWriteMemory := by
  intro cfg s t h hmem
  obtain ⟨-, rfl⟩ | ⟨c, rest, e, hdecode, heffect, rfl⟩ := stepWith_next h
  · exact absurd rfl hmem
  · have hkind := e.kind_of_mem_ne (s.afterFetch c.length) hmem
    rw [Coded.effect_kind heffect] at hkind
    exact ⟨c, rest, hdecode, hkind⟩

/-- Settles O11: the fetch moves `PC` by the length, and only a call's or a return's effect moves it again. -/
theorem pcAdvancesByTheLength : Obligations.PcAdvancesByTheLength := by
  refine fun cfg s t h => ⟨fun c rest hdecode hcall hret => ?_, fun hop => ?_⟩
  · rw [stepWith_of_decode hdecode] at h
    obtain ⟨-, -, hkept⟩ := onlyCallAndReturnMoveSp cfg c _ t h
    exact (hkept hcall hret).2
  · rw [stepWith_unknown hop] at h
    exact Host.Outcome.next.inj h ▸ rfl

end Sys2Proof.Machine
end

section
/-! The invariant: every effect keeps each of its four parts, and the fetch and the report touch none of them (spec/10_state.md R23;
spec/41_execute_loop.md R88; spec/44_call_return.md R144). -/

namespace Sys2Proof.Machine

theorem State.inv_iff {s : State} {cfg : Config} : s.Inv cfg = true ↔
    s.mem.wf = true ∧ s.inertFlagsClear = true ∧ s.znExclusive = true ∧ s.spParity cfg = true := by
  simp only [State.Inv, State.memWf, Bool.and_eq_true, and_assoc]

/-- The byte that sets `Z` does not set `N`. -/
theorem znExclusive_of_byte {s : State} {v : Byte} (hz : s.flagZ = (v == 0#8)) (hn : s.flagN = v.msb) : s.znExclusive = true := by
  rw [State.znExclusive, hz, hn, Bool.not_eq_true', ← Bool.not_eq_true, Bool.and_eq_true]
  exact setZN_not_flagZ_and_flagN v s

section EffectKeepsInv

variable {s : State} {cfg : Config} (e : Effect)

theorem Effect.apply_inertFlagsClear (h : s.inertFlagsClear = true) : (e.apply s).inertFlagsClear = true := by
  simpa only [State.inertFlagsClear, Effect.apply_flagC, Effect.apply_flagI, Effect.apply_flagD, Effect.apply_flagB,
    Effect.apply_flagV] using h

theorem Effect.apply_znExclusive (h : s.znExclusive = true) : (e.apply s).znExclusive = true := by
  obtain ⟨hz, hn⟩ | ⟨v, hz, hn⟩ := e.apply_zn s
  · rwa [State.znExclusive, hz, hn]
  · exact znExclusive_of_byte hz hn

/-- Moving a byte by 2 keeps its parity, also at the wrap. -/
theorem Byte.getLsbD_zero_add_two (v : Byte) : (v + 2#8).getLsbD 0 = v.getLsbD 0 := by
  simp only [BitVec.getLsbD, BitVec.toNat_add, BitVec.toNat_ofNat, Nat.testBit_zero, decide_eq_decide]
  omega

theorem Byte.getLsbD_zero_sub_two (v : Byte) : (v - 2#8).getLsbD 0 = v.getLsbD 0 := by
  rw [← Byte.getLsbD_zero_add_two (v - 2#8), BitVec.sub_add_cancel]

theorem Effect.apply_spParity (h : s.spParity cfg = true) : (e.apply s).spParity cfg = true := by
  obtain hsp | hsp | hsp := e.apply_sp s
  · rwa [State.spParity, hsp]
  · rwa [State.spParity, hsp, Byte.getLsbD_zero_sub_two]
  · rwa [State.spParity, hsp, Byte.getLsbD_zero_add_two]

theorem Effect.apply_inv (h : s.Inv cfg = true) : (e.apply s).Inv cfg = true := by
  obtain ⟨hmem, hflags, hzn, hsp⟩ := State.inv_iff.mp h
  exact State.inv_iff.mpr ⟨e.apply_memWf s hmem, e.apply_inertFlagsClear hflags, e.apply_znExclusive hzn, e.apply_spParity hsp⟩

end EffectKeepsInv

theorem State.inv_afterFetch (s : State) (cfg : Config) (n : Nat) : (s.afterFetch n).Inv cfg = s.Inv cfg := rfl

theorem inv_raiseUnknownOpcode (s : State) (cfg : Config) (op : Byte) (a : Word) :
    (raiseUnknownOpcode op a s).Inv cfg = s.Inv cfg := rfl

theorem stepWith_inv {cfg : Config} {s t : State} (hinv : s.Inv cfg = true) (h : stepWith cfg s = .next t) : t.Inv cfg = true := by
  obtain ⟨-, rfl⟩ | ⟨c, rest, e, -, -, rfl⟩ := stepWith_next h
  · rwa [inv_raiseUnknownOpcode, State.inv_afterFetch]
  · exact e.apply_inv hinv

/-- Settles O39: an effect keeps each part of the invariant, and the fetch and the report touch none. -/
theorem stepKeepsTheInvariant : Obligations.StepKeepsTheInvariant :=
  ⟨fun s _ hinv h => stepWith_inv hinv (step_eq_stepWith s ▸ h), fun _ _ _ => stepWith_inv⟩

theorem State.resetWith_inv (cfg : Config) : (State.resetWith cfg).Inv cfg = true :=
  State.inv_iff.mpr ⟨Memory.wf_reset cfg, rfl, rfl, beq_self_eq_true (cfg.spReset.getLsbD 0)⟩

/-- The default `SP_RESET`, 0xFF, is odd, and so is every `SP` of its parity. -/
theorem sp_odd_of_inv_default {s : State} (h : s.Inv Config.default = true) : s.sp.toNat % 2 = 1 := by
  obtain ⟨-, -, -, hsp⟩ := State.inv_iff.mp h
  have hbit : s.sp.toNat.testBit 0 = true := beq_iff_eq.mp hsp
  rwa [Nat.testBit_zero, decide_eq_true_iff] at hbit

/-- Settles O38: the parts hold of the literal state, and the parity bit of 0xFF is 1. -/
theorem resetMeetsTheInvariant : Obligations.ResetMeetsTheInvariant :=
  ⟨State.resetWith_inv Config.default, State.resetWith_inv, fun _ => sp_odd_of_inv_default⟩

/-- Settles O37: the four fields of the default reset state. -/
theorem resetConstantsAreTheDefaults : Obligations.ResetConstantsAreTheDefaults := ⟨rfl, rfl, rfl, rfl⟩

end Sys2Proof.Machine
end

section
/-! The body of a load and of a store in the terms of the cost table: the effective address, and the cycles `Coded.bodyCycles` counts
by the carry of the indexed sum (spec/40_addressing_modes.md R66, R75; spec/41_execute_loop.md R93, R94). -/

namespace Sys2Proof.Machine

theorem crossingExtra_eq (base : Word) (idx : Byte) : crossingExtra base idx = if leavesPage base idx then 1 else 0 := by
  rw [crossingExtra, pageCross_indexed]

/-- Where a mode resolves to an address, the resolver charges what the columns of R75 give. -/
theorem Mode.resolverCharge_eq {s : State} {m : Mode} {o : Operand} {ea : Word} (hea : m.effectiveAddr s o = some ea)
    (always : Bool) : m.resolverCharge s always o = m.resolverCycles s always o := by
  cases m <;> cases o <;> cases hea <;> cases always <;>
    simp [Mode.resolverCharge, Mode.resolverCycles, crossingExtra_eq]
  -- left is the conditional pointer mode, whose surcharge stands inside a sum
  split <;> rfl

section Bodies

variable {cfg : Config} {c : Coded} {s : State} {r : Reg} {ea : Word}

theorem Coded.effect_of_load (hkind : c.desc.kind = .load r) (hea : c.effectiveAddr s = some ea) :
    c.effect cfg s = some (.load r (s.peek ea) (c.bodyCycles cfg s)) := by
  obtain ⟨⟨m, k, always⟩, o⟩ := c
  cases hkind
  have hcharge := Mode.resolverCharge_eq hea always
  cases m <;> cases o <;> cases hea <;>
    simp [Coded.effect, Coded.bodyCycles, Mode.effectiveAddr, hcharge]

theorem Coded.effect_of_store (hkind : c.desc.kind = .store r) (hea : c.effectiveAddr s = some ea) :
    c.effect cfg s = some (.store r ea (c.bodyCycles cfg s)) := by
  obtain ⟨⟨m, k, always⟩, o⟩ := c
  cases hkind
  have hmode : m.effectiveAddr s o = some ea := hea
  simp [Coded.effect, Coded.bodyCycles, hmode, Mode.resolverCharge_eq hmode always]

/-- An immediate load has no effective address: its operand is the value (R67). -/
theorem Coded.effect_of_immediate (r : Reg) (always : Bool) (d : Byte) :
    (⟨⟨.imm, .load r, always⟩, .d8 d⟩ : Coded).effect cfg s = some (.load r d 0) := rfl

/-- Whatever the effect, it charges what the table's columns count for the body. -/
theorem Coded.charges_of_effect {e : Effect} (h : c.effect cfg s = some e) : e.charges = c.bodyCycles cfg s := by
  obtain ⟨⟨m, k, always⟩, o⟩ := c
  cases k with
  | load r =>
    cases hea : m.effectiveAddr s o with
    | some ea =>
      have heffect := Coded.effect_of_load (c := ⟨⟨m, .load r, always⟩, o⟩) (cfg := cfg) rfl hea
      cases heffect.symm.trans h
      rfl
    | none => cases m <;> cases o <;> cases hea <;> cases h; rfl
  | store r =>
    obtain ⟨ea, hea, -⟩ := Option.map_eq_some_iff.mp h
    have heffect := Coded.effect_of_store (c := ⟨⟨m, .store r, always⟩, o⟩) (cfg := cfg) rfl hea
    cases heffect.symm.trans h
    rfl
  | call => cases o <;> cases h; rfl
  | ret => cases h; rfl

theorem execWith_of_effect {e : Effect} (h : c.effect cfg s = some e) : execWith cfg c s = .next (e.apply s) := by
  rw [execWith_eq, h]

/-- A load answers the byte at its effective address in its register (R93). -/
theorem execWith_load (hkind : c.desc.kind = .load r) (hea : c.effectiveAddr s = some ea) :
    execWith cfg c s = .next (s.loaded r (s.peek ea) (c.bodyCycles cfg s)) :=
  execWith_of_effect (Coded.effect_of_load hkind hea)

/-- A store answers its register at its effective address, and nothing else changed (R94). -/
theorem execWith_store (hkind : c.desc.kind = .store r) (hea : c.effectiveAddr s = some ea) :
    ∃ t, execWith cfg c s = .next t ∧ s.Stored t ea (s.getReg r) (c.bodyCycles cfg s) :=
  ⟨_, execWith_of_effect (Coded.effect_of_store hkind hea), s.stored_poke ea (s.getReg r) (c.bodyCycles cfg s)⟩

end Bodies

section Rows

variable {i : Instr} {s : State} {r : Reg} {ea : Word} {n : Nat}

/-- The surcharge of a conditional mode in the table's totals: an absolute indexed load, and one through a pointer. -/
theorem total_of_absolute_crossing (b : Bool) : (if b then 5 else 4) = 3 + ((if false || b then 1 else 0) + 1) := by
  cases b <;> rfl

theorem total_of_pointer_crossing (b : Bool) : (if b then 6 else 5) = 2 + ((if false || b then 3 else 2) + 1) := by
  cases b <;> rfl

/-- The total the table prints for a row is the one its descriptor and operand have by the columns of R75. -/
theorem Instr.cycleTotal_eq_coded (i : Instr) (s : State) : i.cycleTotal s = i.coded.cycleTotal Config.default s := by
  cases i
  case ldaAbx w | ldyAbx w => exact total_of_absolute_crossing (leavesPage w s.x)
  case ldaAby w | ldxAby w => exact total_of_absolute_crossing (leavesPage w s.y)
  case ldaIzy d => exact total_of_pointer_crossing (leavesPage (s.peekWord (Byte.zext d)) s.y)
  all_goals rfl

theorem Instr.bodyCycles_coded (i : Instr) (s : State) : i.coded.bodyCycles Config.default s = i.cycleTotal s - i.length := by
  rw [Instr.cycleTotal_eq_coded]
  exact (Nat.add_sub_cancel_left i.coded.length _).symm

theorem exec_load (hkind : i.descriptor.kind = .load r) (hea : i.effectiveAddr s = some ea)
    (hn : i.coded.bodyCycles Config.default s = n) : exec i s = .next (s.loaded r (s.peek ea) n) := by
  rw [exec_eq_execWith, ← hn]
  exact execWith_load hkind hea

theorem exec_store {v : Byte} (hkind : i.descriptor.kind = .store r) (hea : i.effectiveAddr s = some ea) (hv : s.getReg r = v)
    (hn : i.coded.bodyCycles Config.default s = n) : ∃ t, exec i s = .next t ∧ s.Stored t ea v n := by
  rw [exec_eq_execWith, ← hn, ← hv]
  exact execWith_store hkind hea

/-- What a conditional load charges after the fetch of its bytes. -/
theorem body_of_absolute_crossing (b : Bool) : (if false || b then 1 else 0) + 1 = if b then 2 else 1 := by cases b <;> rfl

theorem body_of_pointer_crossing (b : Bool) : (if false || b then 3 else 2) + 1 = if b then 4 else 3 := by cases b <;> rfl

end Rows

/-- Settles O28: the effect of a load with an effective address, and for a row of the table the cycles as its total less its bytes. -/
theorem loadsFollowTheirDescriptor : Obligations.LoadsFollowTheirDescriptor :=
  ⟨fun i s _ _ hkind hea => exec_load hkind hea (Instr.bodyCycles_coded i s), fun _ _ _ _ _ => execWith_load⟩

/-- Settles O29: the same for a store, whose effect is one byte written and its charge. -/
theorem storesFollowTheirDescriptor : Obligations.StoresFollowTheirDescriptor :=
  ⟨fun i s _ _ hkind hea => exec_store hkind hea rfl (Instr.bodyCycles_coded i s), fun _ _ _ _ _ => execWith_store⟩

/-- Settles O12: an immediate load of any map is the effect that charges nothing, and the three rows are `loadValue` of the operand. -/
theorem loadImmediateResult : Obligations.LoadImmediateResult :=
  ⟨fun _ _ => ⟨rfl, rfl, rfl⟩, fun _ r always d _ => execWith_of_effect (Coded.effect_of_immediate r always d)⟩

/-! Each row's result below is `exec_load` or `exec_store` of it: its kind, its effective address, its register and its cycles are read off the row. -/

/-- Settles O13: the effective address is the operand byte, widened. -/
theorem loadZeroPageResult : Obligations.LoadZeroPageResult := fun _ _ =>
  ⟨exec_load rfl rfl rfl, exec_load rfl rfl rfl, exec_load rfl rfl rfl⟩

/-- Settles O14: the index enters the sum before it is widened. -/
theorem loadZeroPageIndexedResult : Obligations.LoadZeroPageIndexedResult := fun _ _ =>
  ⟨exec_load rfl rfl rfl, exec_load rfl rfl rfl, exec_load rfl rfl rfl⟩

/-- Settles O15: the effective address is the operand word. -/
theorem loadAbsoluteResult : Obligations.LoadAbsoluteResult := fun _ _ =>
  ⟨exec_load rfl rfl rfl, exec_load rfl rfl rfl, exec_load rfl rfl rfl⟩

/-- Settles O16: the conditional extra cycle of a load is the carry of the low bytes. -/
theorem loadAbsoluteIndexedResult : Obligations.LoadAbsoluteIndexedResult := fun w s =>
  have hx := body_of_absolute_crossing (leavesPage w s.x)
  have hy := body_of_absolute_crossing (leavesPage w s.y)
  ⟨exec_load rfl rfl hx, exec_load rfl rfl hy, exec_load rfl rfl hy, exec_load rfl rfl hx⟩

/-- Settles O17: the resolver's three cycles and the one access never vary. -/
theorem loadIndexedIndirectResult : Obligations.LoadIndexedIndirectResult := fun _ _ => exec_load rfl rfl rfl

/-- Settles O18: the pointer read costs two cycles, the carry of `Y` a third. -/
theorem loadIndirectIndexedResult : Obligations.LoadIndirectIndexedResult := fun d s =>
  exec_load rfl rfl (body_of_pointer_crossing (leavesPage (s.peekWord (Byte.zext d)) s.y))

/-- Settles O19: the effective address is the resolver's. -/
theorem storeZeroPageResult : Obligations.StoreZeroPageResult := fun _ _ =>
  ⟨exec_store rfl rfl rfl rfl, exec_store rfl rfl rfl rfl, exec_store rfl rfl rfl rfl⟩

/-- Settles O20: the resolver charges the one extra cycle. -/
theorem storeZeroPageIndexedResult : Obligations.StoreZeroPageIndexedResult := fun _ _ =>
  ⟨exec_store rfl rfl rfl rfl, exec_store rfl rfl rfl rfl, exec_store rfl rfl rfl rfl⟩

/-- Settles O21: the resolver is the operand word and charges nothing. -/
theorem storeAbsoluteResult : Obligations.StoreAbsoluteResult := fun _ _ =>
  ⟨exec_store rfl rfl rfl rfl, exec_store rfl rfl rfl rfl, exec_store rfl rfl rfl rfl⟩

/-- Settles O22: `always` decides the extra cycle before the carry is looked at. -/
theorem storeAbsoluteIndexedResult : Obligations.StoreAbsoluteIndexedResult := fun _ _ =>
  ⟨exec_store rfl rfl rfl rfl, exec_store rfl rfl rfl rfl⟩

/-- Settles O23: `IZX` has no conditional cycle, and `IZY` takes it always here. -/
theorem storeIndirectResult : Obligations.StoreIndirectResult := fun _ _ =>
  ⟨exec_store rfl rfl rfl rfl, exec_store rfl rfl rfl rfl⟩

end Sys2Proof.Machine
end

section
/-! The cost of a step: one cycle for each byte of the instruction and what its body charges, from 1 to 6 in all
(spec/40_addressing_modes.md R75; spec/41_execute_loop.md R92; spec/70_reset_and_hazards.md R184). -/

namespace Sys2Proof.Machine

theorem Format.length_pos (f : Format) : 1 ≤ f.length := by cases f <;> decide

/-- The fetch and the resolver of a mode take at most 5 cycles. -/
theorem Mode.fetchAndResolve_le (m : Mode) (s : State) (always : Bool) (o : Operand) :
    m.format.length + m.resolverCycles s always o ≤ 5 := by
  cases m <;> cases o <;> simp only [Mode.resolverCycles, Mode.format, Format.length] <;> grind

theorem Coded.cycleTotal_pos (cfg : Config) (s : State) (c : Coded) : 1 ≤ c.cycleTotal cfg s :=
  Nat.le_add_right_of_le (Format.length_pos c.desc.mode.format)

/-- A whole instruction takes at most 6 cycles; a return reaches 6 with the physical part's tail of 3. -/
theorem Coded.cycleTotal_le {cfg : Config} {c : Coded} (s : State) (hwf : c.wf = true) (htail : cfg.rtsTailCycles ≤ 3) :
    c.cycleTotal cfg s ≤ 6 := by
  obtain ⟨⟨m, k, always⟩, o⟩ := c
  have hresolve := Mode.fetchAndResolve_le m s always o
  have hcomplete := (Bool.and_eq_true_iff.mp hwf).1
  cases k with
  | load r =>
    simp only [Coded.cycleTotal, Coded.length, Coded.bodyCycles]
    split <;> omega
  | store r =>
    simp only [Coded.cycleTotal, Coded.length, Coded.bodyCycles]
    omega
  | call =>
    have hformat : m.format = .f3 := beq_iff_eq.mp hcomplete
    simp [Coded.cycleTotal, Coded.length, Coded.bodyCycles, hformat, Format.length, Config.jsrTailCycles]
  | ret =>
    have hformat : m.format = .f1 := beq_iff_eq.mp hcomplete
    simp only [Coded.cycleTotal, Coded.length, Coded.bodyCycles, hformat, Format.length]
    omega

section Cost

variable {cfg : Config} {s t : State}

theorem Effect.apply_afterFetch_cyc {c : Coded} {e : Effect} (h : c.effect cfg s = some e) :
    (e.apply (s.afterFetch c.length)).cyc = s.cyc - c.cycleTotal cfg s := by
  rw [Effect.apply_cyc, State.afterFetch_cyc, Coded.charges_of_effect h, Coded.cycleTotal, Nat.cast_add, Int.sub_sub]

theorem stepWith_cyc {c : Coded} {rest : List Byte} (h : stepWith cfg s = .next t) (hdecode : decode cfg s.bytesAtPc = .ok (c, rest)) :
    t.cyc = s.cyc - c.cycleTotal cfg s := by
  rw [stepWith_of_decode hdecode] at h
  obtain ⟨e, heffect, rfl⟩ := execWith_next h
  exact Effect.apply_afterFetch_cyc (Coded.effect_afterFetch s _ cfg c ▸ heffect)

theorem stepWith_cyc_unknown (h : stepWith cfg s = .next t) (hop : decodeOpcode cfg (s.peek s.pc) = none) : t.cyc = s.cyc - 1 := by
  rw [stepWith_unknown hop] at h
  exact Host.Outcome.next.inj h ▸ rfl

/-- A step charges at least 1 cycle, and at most 6 with an `RTS` tail of at most 3 (R92). -/
theorem stepWith_cyc_bounds (h : stepWith cfg s = .next t) :
    t.cyc ≤ s.cyc - 1 ∧ (cfg.rtsTailCycles ≤ 3 → s.cyc - 6 ≤ t.cyc) := by
  cases hop : decodeOpcode cfg (s.peek s.pc) with
  | none =>
    have hcyc := stepWith_cyc_unknown h hop
    omega
  | some d =>
    obtain ⟨rest, hdecode⟩ := decode_bytesAtPc s hop
    obtain ⟨-, -, -, hwf⟩ := decode_ok hdecode
    have hcyc := stepWith_cyc h hdecode
    have hlow := Coded.cycleTotal_pos cfg s ⟨d, s.operandAtPc d.mode.format⟩
    have hhigh := Coded.cycleTotal_le (cfg := cfg) s hwf
    exact ⟨by omega, fun htail => by have := hhigh htail; omega⟩

end Cost

/-- Settles O10: the fetch charges the length and the effect the body's cycles, whose sum for a row is the table's total. -/
theorem stepCostsTheTableTotal : Obligations.StepCostsTheTableTotal := by
  refine ⟨fun s t i rest h hdecode => ?_, fun cfg s t h =>
    ⟨fun c rest => stepWith_cyc h, stepWith_cyc_unknown h, stepWith_cyc_bounds h⟩⟩
  rw [step_eq_stepWith] at h
  rw [Instr.cycleTotal_eq_coded]
  exact stepWith_cyc h (decodeInstr_iff.mp hdecode)

end Sys2Proof.Machine
end

section
/-! Call and return: each is one update of the state, and the two stack addresses meet again after `SP -_8 2` exactly from `SP = 2` up
(spec/44_call_return.md R140 to R144). -/

namespace Sys2Proof.Machine

section Bodies

variable {cfg : Config} {c : Coded} {s t : State}

theorem execWith_call {w : Word} (hkind : c.desc.kind = .call) (hoperand : c.operand = .word w) :
    execWith cfg c s = .next (s.call cfg w 3) := by
  simp only [execWith, hkind, hoperand, execJsrWith_eq]

theorem execWith_call_next (hkind : c.desc.kind = .call) (h : execWith cfg c s = .next t) :
    ∃ w, c.operand = .word w ∧ t = s.call cfg w 3 := by
  cases hoperand : c.operand with
  | word w => exact ⟨w, rfl, Host.Outcome.next.inj (h.symm.trans (execWith_call hkind hoperand))⟩
  | none | d8 => simp [execWith, hkind, hoperand] at h

theorem execWith_ret (hkind : c.desc.kind = .ret) : execWith cfg c s = .next (s.returned cfg (2 + cfg.rtsTailCycles)) := by
  simp only [execWith, hkind, execRtsWith_eq]

end Bodies

/-- Settles O24: the update a call makes is what `Called` says; `JSR` is a call of the default map. -/
theorem callResult : Obligations.CallResult := by
  have hcall (cfg : Config) (c : Coded) (w : Word) (s : State) (hkind : c.desc.kind = .call) (hoperand : c.operand = .word w) :
      ∃ t, execWith cfg c s = .next t ∧ s.Called t cfg w 3 :=
    ⟨_, execWith_call hkind hoperand, s.called_call cfg w 3⟩
  exact ⟨fun w s => exec_eq_execWith (.jsr w) s ▸ hcall Config.default (Instr.jsr w).coded w s rfl rfl, hcall⟩

/-- Settles O25: the update a return makes, with the default's tail of 2 for `RTS`. -/
theorem returnResult : Obligations.ReturnResult :=
  ⟨fun s => exec_eq_execWith .rts s ▸ execWith_ret rfl, fun _ _ _ hkind => execWith_ret hkind⟩

/-- From `SP = 2` up the return reads where the call wrote. -/
theorem popAddr_sub_two (cfg : Config) {sp : Byte} (h : 2 ≤ sp.toNat) : popAddr cfg (sp - 2#8) = pushAddr cfg sp := by
  have hoffset : Byte.zext (sp - 2#8) + 1#16 = Byte.zext sp - 1#16 := by
    apply BitVec.eq_of_toNat_eq
    have hsp := sp.isLt
    simp only [BitVec.toNat_add, BitVec.toNat_sub, BitVec.toNat_ofNat, Byte.toNat_zext]
    omega
  rw [popAddr, pushAddr, BitVec.add_assoc, hoffset, add_sub_assoc]

/-- Below it `SP` wraps and the address does not, so the return reads one page above where the call wrote. -/
theorem popAddr_sub_two_of_wrap (cfg : Config) {sp : Byte} (h : sp.toNat < 2) :
    popAddr cfg (sp - 2#8) = pushAddr cfg sp + 0x0100#16 := by
  have hoffset : Byte.zext (sp - 2#8) + 1#16 = Byte.zext sp - 1#16 + 0x0100#16 := by
    apply BitVec.eq_of_toNat_eq
    simp only [BitVec.toNat_add, BitVec.toNat_sub, BitVec.toNat_ofNat, Byte.toNat_zext]
    omega
  rw [popAddr, pushAddr, BitVec.add_assoc, hoffset, add_sub_assoc, BitVec.add_assoc]

/-- The word at an address whose two cells hold a word's bytes is that word (R41). -/
theorem State.peekWord_of_bytes {u : State} {a w : Word} (hlo : u.peek a = Word.lo w) (hhi : u.peek (a + 1#16) = Word.hi w) :
    u.peekWord a = w := by
  rw [State.peekWord, hlo, hhi, Word.ofBytes_hi_lo]

/-- Settles O26: the return reads the two cells the call wrote, so the word is `PC -_16 1` and `SP` moves back. -/
theorem callReturnRoundTrip : Obligations.CallReturnRoundTrip := by
  intro cfg c r s t u hcall hret hsp h husp hlo hhi
  obtain ⟨w, -, rfl⟩ := execWith_call_next hcall h
  obtain ⟨hlow, hhigh, -, -⟩ := s.called_call cfg w 3
  have hword : u.peekWord (pushAddr cfg s.sp) = s.pc - 1#16 := State.peekWord_of_bytes (hlo.trans hlow) (hhi.trans hhigh)
  rw [State.call_sp] at husp
  refine ⟨_, execWith_ret hret, ?_, ?_⟩
  · rw [State.returned_pc, husp, popAddr_sub_two cfg hsp, hword, BitVec.sub_add_cancel]
  · rw [State.returned_sp, husp, BitVec.sub_add_cancel]

/-- Settles O27: the cells read are a page away from the cells written. -/
theorem returnReadsOtherCellsWhenSpWraps : Obligations.ReturnReadsOtherCellsWhenSpWraps := by
  intro cfg c s t hcall hsp h
  obtain ⟨w, -, rfl⟩ := execWith_call_next hcall h
  rw [State.call_sp, popAddr_sub_two_of_wrap cfg hsp]
  generalize pushAddr cfg s.sp = a
  refine ⟨?_, ?_, ?_, ?_⟩ <;> bv_omega

end Sys2Proof.Machine
end

section
/-! Whole steps of the default map: the opcode byte at `PC` selects a row, and the step is the row's one update after the fetch
(spec/41_execute_loop.md R82; spec/42_loads.md; spec/43_stores.md; spec/44_call_return.md). -/

namespace Sys2Proof.Machine

/-! ### The updates of a load, a store, a call and a return after the fetch, with the two charges as one -/

theorem State.afterFetch_loaded (s : State) (k : Nat) (r : Reg) (v : Byte) (n : Nat) :
    (s.afterFetch k).loaded r v n = { s.loaded r v (k + n) with pc := s.pc + BitVec.ofNat 16 k } := by
  cases r <;> simp only [State.loaded, State.afterFetch, State.charge, State.setPc, Int.sub_sub, Nat.cast_add]

theorem State.afterFetch_poke_charge (s : State) (k : Nat) (a : Word) (v : Byte) (n : Nat) :
    ((s.afterFetch k).poke a v).charge n = ((s.setPc (s.pc + BitVec.ofNat 16 k)).poke a v).charge (k + n) := by
  rw [State.afterFetch, poke_charge, State.charge_charge]

theorem State.afterFetch_call (s : State) (cfg : Config) (k : Nat) (w : Word) (n : Nat) :
    (s.afterFetch k).call cfg w n = (s.setPc (s.pc + BitVec.ofNat 16 k)).call cfg w (k + n) := by
  simp only [State.call, ← State.charge_charge]
  rfl

theorem State.afterFetch_returned (s : State) (cfg : Config) (k n : Nat) :
    (s.afterFetch k).returned cfg n = s.returned cfg (k + n) := by
  simp only [State.returned, State.afterFetch, State.charge, State.setPc, Int.sub_sub, Nat.cast_add]
  rfl

section RowAtPc

variable {s : State} {op : Byte} {d : Descriptor} {e : Effect} {r : Reg} {ea : Word} {k n : Nat}

theorem step_of_effect (hpc : s.peek s.pc = op) (hop : decodeOpcode Config.default op = some d)
    (heffect : (s.codedAtPc d).effect Config.default s = some e) : step s = .next (e.apply (s.afterFetch (s.codedAtPc d).length)) := by
  subst hpc
  rw [step_eq_stepWith, stepWith_known hop]
  exact execWith_of_effect ((Coded.effect_afterFetch s _ Config.default _).trans heffect)

theorem step_load (hpc : s.peek s.pc = op) (hop : decodeOpcode Config.default op = some d) (hkind : d.kind = .load r)
    (hea : (s.codedAtPc d).effectiveAddr s = some ea) (hlength : (s.codedAtPc d).length = k)
    (hn : (s.codedAtPc d).cycleTotal Config.default s = n) :
    step s = .next { s.loaded r (s.peek ea) n with pc := s.pc + BitVec.ofNat 16 k } := by
  rw [step_of_effect hpc hop (Coded.effect_of_load hkind hea), Effect.apply, State.afterFetch_loaded, ← hlength, ← hn]
  rfl

theorem step_load_immediate {always : Bool} (hpc : s.peek s.pc = op)
    (hop : decodeOpcode Config.default op = some ⟨.imm, .load r, always⟩) :
    step s = .next { s.loaded r (s.peek (s.pc + 1#16)) 2 with pc := s.pc + 2#16 } := by
  rw [step_of_effect hpc hop (Coded.effect_of_immediate r always _), Effect.apply, State.afterFetch_loaded]
  rfl

theorem step_store {v : Byte} (hpc : s.peek s.pc = op) (hop : decodeOpcode Config.default op = some d) (hkind : d.kind = .store r)
    (hea : (s.codedAtPc d).effectiveAddr s = some ea) (hlength : (s.codedAtPc d).length = k)
    (hv : s.getReg r = v) (hn : (s.codedAtPc d).cycleTotal Config.default s = n) :
    ∃ t, step s = .next t ∧ State.Stored { s with pc := s.pc + BitVec.ofNat 16 k } t ea v n := by
  have hreg : (s.afterFetch k).getReg r = v := by rw [State.afterFetch, State.charge_getReg, ← hv]; cases r <;> rfl
  have hstep := step_of_effect hpc hop (Coded.effect_of_store hkind hea)
  rw [Effect.apply, hlength, hreg, State.afterFetch_poke_charge, ← hlength] at hstep
  subst hlength hn
  exact ⟨_, hstep, State.stored_poke _ ea v _⟩

end RowAtPc

/-- The totals of the conditional loads, by the comparison of pages. -/
theorem absolute_total (base : Word) (idx : Byte) : 3 + ((if false || leavesPage base idx then 1 else 0) + 1) =
    if pageCross base (base + Byte.zext idx) then 5 else 4 := by
  rw [pageCross_indexed, total_of_absolute_crossing]

theorem pointer_total (base : Word) (idx : Byte) : 2 + ((if false || leavesPage base idx then 3 else 2) + 1) =
    if pageCross base (base + Byte.zext idx) then 6 else 5 := by
  rw [pageCross_indexed, total_of_pointer_crossing]

/-- Settles O30: each opcode byte selects its row, whose effective address, length and total are read off it. -/
theorem stepLda : Obligations.StepLda := by
  rintro s d w rfl rfl
  exact ⟨fun h => step_load_immediate h rfl, fun h => step_load h rfl rfl rfl rfl rfl, fun h => step_load h rfl rfl rfl rfl rfl,
    fun h => step_load h rfl rfl rfl rfl rfl, fun h => step_load h rfl rfl rfl rfl (absolute_total _ s.x),
    fun h => step_load h rfl rfl rfl rfl (absolute_total _ s.y), fun h => step_load h rfl rfl rfl rfl rfl,
    fun h => step_load h rfl rfl rfl rfl (pointer_total _ s.y)⟩

/-- Settles O31: as for `LDA`, with `Y` as the index. -/
theorem stepLdx : Obligations.StepLdx := by
  rintro s d w rfl rfl
  exact ⟨fun h => step_load_immediate h rfl, fun h => step_load h rfl rfl rfl rfl rfl, fun h => step_load h rfl rfl rfl rfl rfl,
    fun h => step_load h rfl rfl rfl rfl rfl, fun h => step_load h rfl rfl rfl rfl (absolute_total _ s.y)⟩

/-- Settles O32: as for `LDA`, with `X` as the index; the step is the one load, so `LDY #` does not run on into another row. -/
theorem stepLdy : Obligations.StepLdy := by
  rintro s d w rfl rfl
  exact ⟨fun h => step_load_immediate h rfl, fun h => step_load h rfl rfl rfl rfl rfl, fun h => step_load h rfl rfl rfl rfl rfl,
    fun h => step_load h rfl rfl rfl rfl rfl, fun h => step_load h rfl rfl rfl rfl (absolute_total _ s.x)⟩

/-- Settles O33: each opcode byte selects its row, whose store is one byte at the effective address. -/
theorem stepStores : Obligations.StepStores := by
  rintro s d w rfl rfl two three
  refine ⟨?_, ?_, ?_, ?_, ?_, ?_, ?_, ?_, ?_, ?_, ?_, ?_, ?_⟩ <;> exact fun h => step_store h rfl rfl rfl rfl rfl rfl

/-- Settles O34: the call saves `PC` after its own three bytes, less 1, and the return's one byte is charged with its body. -/
theorem stepCallAndReturn : Obligations.StepCallAndReturn := by
  refine fun s => ⟨fun h => ?_, fun h => ?_⟩
  · have hstep := step_of_effect h (d := ⟨.abs, .call, false⟩) rfl rfl
    exact ⟨_, hstep.trans (congrArg _ (State.afterFetch_call s _ 3 _ 3)), State.called_call _ _ _ _⟩
  · have hstep := step_of_effect h (d := ⟨.imp, .ret, false⟩) rfl rfl
    exact hstep.trans (congrArg _ (State.afterFetch_returned s _ 1 4))

end Sys2Proof.Machine
end

section
/-! Words in memory, the canonical form read back, and what a store or a call leaves for the next fetch (spec/20_memory.md R30 to R49). -/

namespace Sys2Proof.Machine

theorem writeWord_peek_lo (s : State) (a w : Word) : (writeWord a w s).peek a = Word.lo w := by
  simp [writeWord_eq, (Word.succ_ne a).symm]

theorem writeWord_peek_hi (s : State) (a w : Word) : (writeWord a w s).peek (a + 1#16) = Word.hi w := by
  simp [writeWord_eq]

theorem writeWord_peek_of_ne (s : State) {a b : Word} (w : Word) (h : b ≠ a) (h' : b ≠ a + 1#16) :
    (writeWord a w s).peek b = s.peek b := by
  simp [writeWord_eq, h, h']

/-- Settles O47: the two cells hold the word's bytes, and the read takes them in the same order. -/
theorem wordReadAfterWordWrite : Obligations.WordReadAfterWordWrite := by
  intro s a w
  have hlo := writeWord_peek_lo s a w
  have hhi := writeWord_peek_hi s a w
  refine ⟨?_, hlo, hhi, fun b => writeWord_peek_of_ne s w, ?_, ?_⟩
  · rw [readWord_eq]
    exact State.peekWord_of_bytes hlo hhi
  · rw [writeWord_eq]
    rfl
  · rw [readWord_eq]
    rfl

/-- The word of two bytes as a number: the shifted high byte and the low byte have no bit in common. -/
theorem Word.toNat_ofBytes (h l : Byte) : (Word.ofBytes h l).toNat = h.toNat * 256 + l.toNat := by
  have hh := h.isLt
  have hl := l.isLt
  rw [Word.ofBytes, BitVec.toNat_or, BitVec.toNat_shiftLeft, BitVec.toNat_setWidth, BitVec.toNat_setWidth, Nat.shiftLeft_eq,
    Nat.mod_eq_of_lt (by omega : h.toNat < 2 ^ 16), Nat.mod_eq_of_lt (by omega : l.toNat < 2 ^ 16),
    Nat.mod_eq_of_lt (by omega : h.toNat * 2 ^ 8 < 2 ^ 16), Nat.mul_comm, ← Nat.two_pow_add_eq_or_of_lt hl]
  omega

theorem decode_word {cfg : Config} {op : Byte} {d : Descriptor} (hop : decodeOpcode cfg op = some d) (hformat : d.mode.format = .f3)
    (l h : Byte) (rest : List Byte) : decode cfg (op :: l :: h :: rest) = .ok (⟨d, .word (Word.ofBytes h l)⟩, rest) := by
  simp only [decode, hop, hformat, takeOperand]

/-- Settles O48: the word as a number, then each access by its equation. -/
theorem wordsAreLittleEndian : Obligations.WordsAreLittleEndian :=
  ⟨Word.toNat_ofBytes, fun s => congrArg Prod.fst (fetchWord_eq s), fun s a => congrArg Prod.fst (readWord_eq s a),
    fun s a w => ⟨writeWord_peek_lo s a w, writeWord_peek_hi s a w⟩, fun _ _ l h rest _ hop hformat => decode_word hop hformat l h rest⟩

/-- After a store to the byte at `PC` the next fetch gives the register (R49). -/
theorem fetchByte_after_store {cfg : Config} {c : Coded} {s t : State} {r : Reg} (hkind : c.desc.kind = .store r)
    (hea : c.effectiveAddr s = some s.pc) (h : execWith cfg c s = .next t) : (fetchByte t).1 = s.getReg r := by
  obtain ⟨u, hu, hcell, -, hframe⟩ := execWith_store (cfg := cfg) hkind hea
  cases h.symm.trans hu
  have hpc : t.pc = s.pc := by rw [hframe]
  rw [fetchByte_fst, hpc, hcell]

/-- After a call to one of its two cells the next fetch gives the byte written there (R49). -/
theorem fetchByte_after_call {cfg : Config} {c : Coded} {s t : State} (hkind : c.desc.kind = .call) (h : execWith cfg c s = .next t) :
    (c.operand = .word (pushAddr cfg s.sp) → (fetchByte t).1 = Word.lo (s.pc - 1#16)) ∧
    (c.operand = .word (pushAddr cfg s.sp + 1#16) → (fetchByte t).1 = Word.hi (s.pc - 1#16)) := by
  obtain ⟨w, hoperand, rfl⟩ := execWith_call_next hkind h
  obtain ⟨hlo, hhi, -, -⟩ := s.called_call cfg w 3
  rw [fetchByte_fst, State.call_pc, hoperand, Operand.word.injEq, Operand.word.injEq]
  exact ⟨fun hw => hw ▸ hlo, fun hw => hw ▸ hhi⟩

/-- Settles O49: the cell at the new `PC` is one the body wrote, and a fetch reads memory as it stands. -/
theorem storeIsSeenByTheNextFetch : Obligations.StoreIsSeenByTheNextFetch := by
  refine ⟨fun i s t r hkind hea h => ?_, fun _ _ _ _ _ => fetchByte_after_store, fun _ _ _ _ => fetchByte_after_call⟩
  rw [exec_eq_execWith] at h
  exact fetchByte_after_store hkind hea h

section Canonical

variable {m m' : Memory} {n k : Nat} {v : Byte}

theorem Memory.wfFrom_cons : Memory.wfFrom n ((k, v) :: m) = true ↔
    n ≤ k ∧ k < 65536 ∧ v ≠ Config.unlistedByte ∧ Memory.wfFrom (k + 1) m = true := by
  simp only [Memory.wfFrom, Bool.and_eq_true, decide_eq_true_eq, bne_iff_ne, and_assoc]

theorem Memory.cellAt_cons_self : Memory.cellAt ((k, v) :: m) k = v := if_pos rfl

/-- A canonical memory lists nothing below the address it starts from. -/
theorem Memory.cellAt_of_lt (h : Memory.wfFrom n m = true) (hk : k < n) : Memory.cellAt m k = Config.unlistedByte := by
  induction m generalizing n with
  | nil => rfl
  | cons c m ih =>
    obtain ⟨j, w⟩ := c
    obtain ⟨hnj, -, -, hm⟩ := Memory.wfFrom_cons.mp h
    rw [Memory.cellAt, if_neg (by omega), ih hm (by omega)]

/-- The first cell of a canonical memory is read as listed by every canonical memory that reads alike, so that one starts no later. -/
theorem Memory.not_lt_of_cellAt_eq {w : Byte} (h : Memory.wfFrom n ((k, v) :: m) = true) {j : Nat}
    (h' : Memory.wfFrom n ((j, w) :: m') = true)
    (hread : ∀ i < 65536, Memory.cellAt ((k, v) :: m) i = Memory.cellAt ((j, w) :: m') i) : ¬ k < j := by
  intro hkj
  obtain ⟨-, hk, hv, -⟩ := Memory.wfFrom_cons.mp h
  obtain ⟨-, hj, hw, hm'⟩ := Memory.wfFrom_cons.mp h'
  have hfrom : Memory.wfFrom j ((j, w) :: m') = true := Memory.wfFrom_cons.mpr ⟨le_refl j, hj, hw, hm'⟩
  have hcell := hread k hk
  rw [Memory.cellAt_cons_self, Memory.cellAt_of_lt hfrom hkj] at hcell
  exact hv hcell

/-- A canonical memory that reads as the empty one is empty: its first cell would be listed. -/
theorem Memory.eq_nil_of_cellAt (h : Memory.wfFrom n m = true) (hread : ∀ i < 65536, Memory.cellAt m i = Config.unlistedByte) :
    m = [] := by
  cases m with
  | nil => rfl
  | cons c m =>
    obtain ⟨j, w⟩ := c
    obtain ⟨-, hj, hw, -⟩ := Memory.wfFrom_cons.mp h
    exact absurd (Memory.cellAt_cons_self.symm.trans (hread j hj)) hw

/-- Tails of two lists with one first cell read alike when the lists do: at that cell neither lists anything. -/
theorem Memory.cellAt_tail (h : Memory.wfFrom (k + 1) m = true) (h' : Memory.wfFrom (k + 1) m' = true) {i : Nat}
    (hread : Memory.cellAt ((k, v) :: m) i = Memory.cellAt ((k, v) :: m') i) : Memory.cellAt m i = Memory.cellAt m' i := by
  by_cases hi : k = i
  · rw [Memory.cellAt_of_lt h (by omega), Memory.cellAt_of_lt h' (by omega)]
  · simpa only [Memory.cellAt, if_neg hi] using hread

theorem Memory.eq_of_cellAt (h : Memory.wfFrom n m = true) (h' : Memory.wfFrom n m' = true)
    (hread : ∀ i < 65536, Memory.cellAt m i = Memory.cellAt m' i) : m = m' := by
  induction m generalizing n m' with
  | nil => exact (Memory.eq_nil_of_cellAt h' fun i hi => (hread i hi).symm).symm
  | cons c m ih =>
    cases m' with
    | nil => exact Memory.eq_nil_of_cellAt h hread
    | cons c' m' =>
      obtain ⟨k, v⟩ := c
      obtain ⟨j, w⟩ := c'
      obtain rfl : k = j := le_antisymm (not_lt.mp (Memory.not_lt_of_cellAt_eq h' h fun i hi => (hread i hi).symm))
        (not_lt.mp (Memory.not_lt_of_cellAt_eq h h' hread))
      obtain ⟨-, hk, -, hm⟩ := Memory.wfFrom_cons.mp h
      obtain ⟨-, -, -, hm'⟩ := Memory.wfFrom_cons.mp h'
      have hvalue := hread k hk
      rw [Memory.cellAt_cons_self, Memory.cellAt_cons_self] at hvalue
      subst hvalue
      rw [ih hm hm' fun i hi => Memory.cellAt_tail hm hm' (hread i hi)]

end Canonical

/-- Settles O45: by induction on the list, the first cells of the two are at one address with one byte. -/
theorem canonicalMemoriesAreDetermined : Obligations.CanonicalMemoriesAreDetermined := by
  refine ⟨fun m m' h h' hread => Memory.eq_of_cellAt h h' fun i hi => ?_, fun _ a v h => Memory.wf_write a v h⟩
  have hword := hread (BitVec.ofNat 16 i)
  rwa [Memory.read, Memory.read, BitVec.toNat_ofNat, Nat.mod_eq_of_lt hi] at hword

end Sys2Proof.Machine
end

section
/-! What a step does not read: the cycle counter and the flags. Two states that agree on `PC`, memory, `X` and `Y` run the same effect,
and an effect carries a change of the counter or of the flags through (spec/10_state.md R20; spec/41_execute_loop.md R86). -/

namespace Sys2Proof.Machine

/-- Two states alike in what a fetch and a resolver read take the same step: the same report, or the same effect after the same
fetch. -/
theorem stepWith_of_sameReads {s u : State} (cfg : Config) (hpc : u.pc = s.pc) (hmem : u.mem = s.mem) (hx : u.x = s.x)
    (hy : u.y = s.y) :
    (stepWith cfg s = .next (raiseUnknownOpcode (s.peek s.pc) s.pc (s.afterFetch 1)) ∧
      stepWith cfg u = .next (raiseUnknownOpcode (s.peek s.pc) s.pc (u.afterFetch 1))) ∨
    ∃ (e : Effect) (n : Nat), stepWith cfg s = .next (e.apply (s.afterFetch n)) ∧ stepWith cfg u = .next (e.apply (u.afterFetch n)) := by
  have hpeek : u.peek = s.peek := funext fun a => congrArg (Memory.read · a) hmem
  have hbytes : u.bytesAtPc = s.bytesAtPc := by rw [State.bytesAtPc, State.bytesAtPc, hpeek, hpc]
  obtain ⟨hop, -, hstep⟩ | ⟨c, rest, e, -, hdecode, -, -, heffect, hstep⟩ := stepWith_cases s cfg
  · have hop' : decodeOpcode cfg (u.peek u.pc) = none := by rwa [hpeek, hpc]
    rw [← hpeek, ← hpc] at hstep ⊢
    exact .inl ⟨hstep, stepWith_unknown hop'⟩
  · have heffect' : c.effect cfg (u.afterFetch c.length) = some e := by
      rwa [Coded.effect_afterFetch, Coded.effect_congr hx hy hmem, ← Coded.effect_afterFetch s c.length]
    exact .inr ⟨e, c.length, hstep, (stepWith_of_decode (hbytes ▸ hdecode)).trans (execWith_of_effect heffect')⟩

/-- A state with `k` more on its cycle counter. -/
def State.addCycles (s : State) (k : Int) : State := { s with cyc := s.cyc + k }

theorem State.addCycles_afterFetch (s : State) (k : Int) (n : Nat) :
    (s.addCycles k).afterFetch n = (s.afterFetch n).addCycles k := by
  simp only [State.afterFetch, State.addCycles, State.charge, State.setPc, add_sub_right_comm]

theorem Effect.apply_addCycles (e : Effect) (s : State) (k : Int) : e.apply (s.addCycles k) = (e.apply s).addCycles k := by
  cases e with
  | load r v n => cases r <;> simp only [Effect.apply, State.loaded, State.addCycles, add_sub_right_comm]
  | store r ea n =>
    have hreg : (s.addCycles k).getReg r = s.getReg r := by cases r <;> rfl
    rw [Effect.apply, Effect.apply, hreg]
    simp only [State.poke, State.charge, State.addCycles, add_sub_right_comm]
  | call cfg w =>
    simp only [Effect.apply, State.call, State.poke, State.setSp, State.setPc, State.charge, State.addCycles, add_sub_right_comm]
  | ret cfg =>
    simp only [Effect.apply, State.returned, State.addCycles, add_sub_right_comm]
    rfl

theorem stepWith_addCycles {cfg : Config} {s t : State} (k : Int) (h : stepWith cfg s = .next t) :
    stepWith cfg (s.addCycles k) = .next (t.addCycles k) := by
  obtain ⟨hs, hu⟩ | ⟨e, n, hs, hu⟩ := stepWith_of_sameReads (s := s) (u := s.addCycles k) cfg rfl rfl rfl rfl
  · cases h.symm.trans hs
    rw [hu, State.addCycles_afterFetch]
    rfl
  · cases h.symm.trans hs
    rw [hu, State.addCycles_afterFetch, Effect.apply_addCycles]

/-- Settles O57: the fetch and each effect subtract from the counter and never look at it. -/
theorem stepDoesNotReadTheCycleCounter : Obligations.StepDoesNotReadTheCycleCounter := fun _ _ _ k => stepWith_addCycles k

/-- An effect on a state with other flags: those flags kept, or, after a load, with its own `Z` and `N` over them (R20). -/
theorem Effect.apply_withFlags (e : Effect) (s : State) (c z i d b v n : Bool) :
    ((e.apply s).flagZ = s.flagZ ∧ (e.apply s).flagN = s.flagN ∧
      e.apply (s.withFlags c z i d b v n) = (e.apply s).withFlags c z i d b v n) ∨
    e.apply (s.withFlags c z i d b v n) = (e.apply s).withFlags c (e.apply s).flagZ i d b v (e.apply s).flagN := by
  cases e with
  | load r w k => cases r <;> exact .inr rfl
  | store r ea k => cases r <;> exact .inl ⟨rfl, rfl, rfl⟩
  | call | ret => exact .inl ⟨rfl, rfl, rfl⟩

/-- Settles O41: the fetch and the report leave the flags, and an effect reads none. -/
theorem flagsAreNeverRead : Obligations.FlagsAreNeverRead := by
  intro cfg s t c z i d b v n h
  obtain ⟨hs, hu⟩ | ⟨e, k, hs, hu⟩ := stepWith_of_sameReads (s := s) (u := s.withFlags c z i d b v n) cfg rfl rfl rfl rfl
  · cases h.symm.trans hs
    exact ⟨⟨rfl, rfl, rfl, rfl, rfl⟩, .inl ⟨rfl, rfl, hu⟩⟩
  · cases h.symm.trans hs
    refine ⟨⟨e.apply_flagC _, e.apply_flagI _, e.apply_flagD _, e.apply_flagB _, e.apply_flagV _⟩, ?_⟩
    obtain ⟨hz, hn, hflags⟩ | hflags := e.apply_withFlags (s.afterFetch k) c z i d b v n
    · exact .inl ⟨hz, hn, hu.trans (congrArg _ hflags)⟩
    · exact .inr (hu.trans (congrArg _ hflags))

end Sys2Proof.Machine
end

section
/-! `Execute` as a run of whole steps, each started with `cyc > 0`: the run to the first halt is what the loop computes, whatever fuel
it is given beyond the run's length (spec/41_execute_loop.md R80 to R92). -/

namespace Sys2Proof.Machine

/-- `k` whole steps lead from one state to another, each started while Running (R80, R81). -/
inductive RunsTo (cfg : Config) : Nat → State → State → Prop
  | refl (s : State) : RunsTo cfg 0 s s
  | step {k : Nat} {s u t : State} (hcyc : 0 < s.cyc) (hstep : stepWith cfg s = .next u) (htail : RunsTo cfg k u t) :
    RunsTo cfg (k + 1) s t

section Runs

variable {cfg : Config} {k j : Nat} {s u t : State}

theorem RunsTo.trans (h : RunsTo cfg k s u) (h' : RunsTo cfg j u t) : ∃ n, RunsTo cfg n s t := by
  induction h with
  | refl s => exact ⟨j, h'⟩
  | step hcyc hstep _ ih =>
    obtain ⟨n, hn⟩ := ih h'
    exact ⟨n + 1, .step hcyc hstep hn⟩

/-- What every step of a Running machine keeps, a run keeps. -/
theorem RunsTo.keeps {P : State → Prop} (hP : ∀ s t, 0 < s.cyc → P s → stepWith cfg s = .next t → P t) (h : RunsTo cfg k s t)
    (hs : P s) : P t := by
  induction h with
  | refl s => exact hs
  | step hcyc hstep _ ih => exact ih (hP _ _ hcyc hs hstep)

/-- Each step costs at least 1, so a run is no longer than its budget (R92). -/
theorem RunsTo.length_le (h : RunsTo cfg k s t) : k ≤ s.cyc.toNat := by
  induction h with
  | refl s => exact Nat.zero_le _
  | step hcyc hstep _ ih =>
    obtain ⟨hcost, -⟩ := stepWith_cyc_bounds hstep
    omega

/-- A run with `n` more cycles to spend is the same run. -/
theorem RunsTo.addCycles {n : Int} (hn : 0 ≤ n) (h : RunsTo cfg k s t) : RunsTo cfg k (s.addCycles n) (t.addCycles n) := by
  induction h with
  | refl s => exact .refl _
  | step hcyc hstep _ ih => exact .step (Int.add_pos_of_pos_of_nonneg hcyc hn) (stepWith_addCycles n hstep) ih

/-- A run is a run of the core behind the host's interface. -/
theorem RunsTo.coreRun (h : RunsTo cfg k s t) : Host.Core.run (coreWith cfg) k s = .next t := by
  induction h with
  | refl s => rfl
  | step _ hstep _ ih => simpa only [Host.Core.run, coreWith, hstep] using ih

/-- Every step of a run starts while Running. -/
theorem RunsTo.running_before (h : RunsTo cfg k s t) (hj : j < k) :
    ∃ u : State, Host.Core.run (coreWith cfg) j s = .next u ∧ 0 < u.cyc := by
  induction h generalizing j with
  | refl s => exact absurd hj (Nat.not_lt_zero j)
  | step hcyc hstep _ ih =>
    cases j with
    | zero => exact ⟨_, rfl, hcyc⟩
    | succ j =>
      obtain ⟨u, hrun, hu⟩ := ih (Nat.lt_of_succ_lt_succ hj)
      exact ⟨u, by simpa only [Host.Core.run, coreWith, hstep] using hrun, hu⟩

/-- From every state there is a run to a halt: the budget falls with each step. -/
theorem exists_runsTo_halt (cfg : Config) (s : State) : ∃ k t, RunsTo cfg k s t ∧ t.cyc ≤ 0 := by
  by_cases hcyc : 0 < s.cyc
  · obtain ⟨u, hstep⟩ := exists_stepWith_next cfg s
    obtain ⟨hcost, -⟩ := stepWith_cyc_bounds hstep
    obtain ⟨k, t, hrun, ht⟩ := exists_runsTo_halt cfg u
    exact ⟨k + 1, t, .step hcyc hstep hrun, ht⟩
  · exact ⟨0, s, .refl s, not_lt.mp hcyc⟩
termination_by s.cyc.toNat

/-! ### The loop -/

theorem State.running_eq_false (h : s.cyc ≤ 0) : s.running = false := decide_eq_false (not_lt.mpr h)

theorem executeLoop_halted (h : s.cyc ≤ 0) (fuel : Nat) : executeLoop cfg fuel s = .next s := by
  cases fuel with
  | zero => rfl
  | succ fuel => simp [executeLoop, loopTest, State.running_eq_false h]

theorem executeLoop_step (hcyc : 0 < s.cyc) (hstep : stepWith cfg s = .next u) (fuel : Nat) :
    executeLoop cfg (fuel + 1) s = executeLoop cfg fuel u := by
  simp [executeLoop, loopTest, State.running, hcyc, hstep]

/-- The loop computes the run to the halt, with any fuel that is enough for it. -/
theorem RunsTo.executeLoop (h : RunsTo cfg k s t) (ht : t.cyc ≤ 0) {fuel : Nat} (hfuel : k ≤ fuel) :
    executeLoop cfg fuel s = .next t := by
  induction h generalizing fuel with
  | refl s => exact executeLoop_halted ht fuel
  | step hcyc hstep _ ih =>
    obtain ⟨fuel, rfl⟩ := Nat.exists_eq_add_one_of_ne_zero (by omega : fuel ≠ 0)
    rw [executeLoop_step hcyc hstep]
    exact ih ht (Nat.le_of_succ_le_succ hfuel)

/-- `Execute` answers the halted end of its run and what the run spent of the budget (R81). -/
theorem RunsTo.execute {b : Int} (h : RunsTo cfg k { s with cyc := b } t) (ht : t.cyc ≤ 0) :
    execute cfg b s = .next ⟨t, b - t.cyc⟩ := by
  rw [Machine.execute, h.executeLoop ht h.length_le]

/-- What every `Execute` is: a run from `cyc = budget` to the first halt. -/
theorem exists_execute (cfg : Config) (b : Int) (s : State) :
    ∃ k t, RunsTo cfg k { s with cyc := b } t ∧ t.cyc ≤ 0 ∧ execute cfg b s = .next ⟨t, b - t.cyc⟩ := by
  obtain ⟨k, t, hrun, ht⟩ := exists_runsTo_halt cfg { s with cyc := b }
  exact ⟨k, t, hrun, ht, hrun.execute ht⟩

theorem runsTo_of_execute {b : Int} {r : Executed} (h : execute cfg b s = .next r) :
    ∃ k, RunsTo cfg k { s with cyc := b } r.state ∧ r.state.cyc ≤ 0 ∧ r.cyclesConsumed = b - r.state.cyc := by
  obtain ⟨k, t, hrun, ht, hexecute⟩ := exists_execute cfg b s
  cases h.symm.trans hexecute
  exact ⟨k, hrun, ht, rfl⟩

end Runs

/-- Settles O54: the run to the first halt, its length at most the budget, and the loop blind to the counter it overwrites. -/
theorem executeIsTheRunToTheFirstHalt : Obligations.ExecuteIsTheRunToTheFirstHalt := by
  intro cfg b s
  obtain ⟨k, t, hrun, ht, hexecute⟩ := exists_execute cfg b s
  exact ⟨⟨t, b - t.cyc⟩, k, hexecute, hrun.length_le, hrun.coreRun, ht, fun j => hrun.running_before, rfl,
    fun hb => Int.sub_nonneg.mpr (ht.trans hb), fun _ => rfl⟩

/-- Settles O52: a step from above 0 costs at most 6, so no step of the run ends below -5. -/
theorem executeConsumesTheBudgetAndAtMostFiveMore : Obligations.ExecuteConsumesTheBudgetAndAtMostFiveMore := by
  intro cfg b s hb
  obtain ⟨k, t, hrun, ht, hexecute⟩ := exists_execute cfg b s
  refine ⟨⟨t, b - t.cyc⟩, hexecute, State.running_eq_false ht, rfl, by simpa using ht, fun htail => ?_⟩
  have hover : -5 ≤ t.cyc := by
    refine hrun.keeps (P := fun u => -5 ≤ u.cyc) (fun u v hu _ hstep => ?_) (by simpa using hb.le.trans' (by decide))
    obtain ⟨-, hcost⟩ := stepWith_cyc_bounds hstep
    have hsix := hcost htail
    omega
  change b - t.cyc ≤ b + 5
  omega

/-- Settles O53: the start is already halted, so the run is empty. -/
theorem executeOfNoBudgetDoesNothing : Obligations.ExecuteOfNoBudgetDoesNothing := by
  intro cfg b s hb
  rw [RunsTo.execute (.refl _) hb, Int.sub_self]

/-- Settles O56: the run is one step, since it costs at least the budget of 1. -/
theorem executeOneIsOneStep : Obligations.ExecuteOneIsOneStep := by
  intro cfg s t hstep
  obtain ⟨hcost, -⟩ := stepWith_cyc_bounds hstep
  exact RunsTo.execute (.step Int.one_pos hstep (.refl t)) hcost

/-- Settles O55: the first run with `b - r.cyc` more to spend ends where the second begins, so the two in a row are one run. -/
theorem executeTwiceIsOnceWithTheSum : Obligations.ExecuteTwiceIsOnceWithTheSum := by
  intro cfg a b s r q _ hb hfirst hsecond
  obtain ⟨k, hrun, hr, hcount⟩ := runsTo_of_execute hfirst
  obtain ⟨j, hrun', hq, hcount'⟩ := runsTo_of_execute hsecond
  have hspare : 0 ≤ b - r.state.cyc := by omega
  have hshifted := hrun.addCycles hspare
  have hend : r.state.addCycles (b - r.state.cyc) = { r.state with cyc := b } := by
    simp only [State.addCycles, add_sub_cancel]
  have hstart : State.addCycles { s with cyc := a } (b - r.state.cyc) = { s with cyc := r.cyclesConsumed + b } := by
    simp only [State.addCycles, hcount]
    congr 1
    omega
  rw [hend, hstart] at hshifted
  obtain ⟨n, hboth⟩ := hshifted.trans hrun'
  rw [hboth.execute hq, hcount']
  congr 2
  omega

/-- `Execute` keeps the invariant: its first state differs in the counter alone, and each step keeps it. -/
theorem execute_inv {cfg : Config} {b : Int} {s : State} {r : Executed} (hinv : s.Inv cfg = true) (h : execute cfg b s = .next r) :
    r.state.Inv cfg = true := by
  obtain ⟨k, hrun, -, -⟩ := runsTo_of_execute h
  exact hrun.keeps (P := fun u => u.Inv cfg = true) (fun _ _ _ => stepWith_inv) hinv

end Sys2Proof.Machine
end

section
/-! The host's commands: what each leaves of a machine that has been reset, and what the one before the first `Reset` answers
(spec/70_reset_and_hazards.md R170 to R177; spec/10_state.md R27). -/

namespace Sys2Proof.Machine

theorem State.inv_poke {s : State} {cfg : Config} (a : Word) (v : Byte) (h : s.Inv cfg = true) : (s.poke a v).Inv cfg = true := by
  obtain ⟨hmem, hrest⟩ := State.inv_iff.mp h
  exact State.inv_iff.mpr ⟨Memory.wf_write a v hmem, hrest⟩

theorem hostAct_inv {cfg : Config} {c : HostCommand} {s t : State} {r : HostReply} (hinv : s.Inv cfg = true)
    (h : hostAct cfg c s = .next (t, r)) : t.Inv cfg = true := by
  cases c with
  | reset => cases h; exact State.resetWith_inv cfg
  | write a v => cases h; exact State.inv_poke a v hinv
  | readCell | readReg | readPc | readFlag | readDiag => cases h; exact hinv
  | execute b =>
    obtain ⟨-, u, -, -, hexecute⟩ := exists_execute cfg b s
    rw [hostAct, hexecute] at h
    cases h
    exact execute_inv hinv hexecute

/-- On a machine that has been reset a host command is its act. -/
theorem hostAct_of_hostStep {cfg : Config} {c : HostCommand} {s t : State} {r : HostReply}
    (h : hostStep cfg c (some s) = .next (some t, r)) : hostAct cfg c s = .next (t, r) := by
  cases hact : hostAct cfg c s with
  | next p => simp only [hostStep, hact] at h; cases h; rfl
  | fault f => simp only [hostStep, hact] at h; cases h
  | refused f => simp only [hostStep, hact] at h; cases h

/-- Settles O40: `Reset` establishes the invariant, a raw write and an `Execute` keep it, and a read changes nothing. -/
theorem hostCommandsKeepTheInvariant : Obligations.HostCommandsKeepTheInvariant := fun _ _ _ _ _ hinv h =>
  hostAct_inv hinv (hostAct_of_hostStep h)

/-- Settles O58: `Reset` is one literal state, of the engine that has none and of the one that has. -/
theorem resetIsIdempotent : Obligations.ResetIsIdempotent := by
  refine fun cfg => ⟨State.resetWith cfg, fun e => ?_, State.resetWith_peek cfg⟩
  cases e <;> rfl

/-- Settles O59: each other command by its own case. -/
theorem commandsBeforeResetAreRefused : Obligations.CommandsBeforeResetAreRefused := by
  intro cfg c hc
  cases c with
  | reset => exact absurd rfl hc
  | write | readCell | readReg | readPc | readFlag | readDiag | execute => rfl

end Sys2Proof.Machine
end
